-- ==== Sys2Proof/Word.lean ====
section
/-! DEFINITION. The machine's word types: every register, memory cell and operand is one unsigned byte (R13, R79),
the program counter has 9 bits (R36), a register number is one of eight (R30). -/

namespace Sys2Proof

/-- An unsigned 8-bit value: a register, a memory cell, an opcode or an operand byte (R13). -/
abbrev Byte := BitVec 8

/-- The program counter's value: 9 bits, so that 0x100, one past the last cell, can be held (R36). -/
abbrev PcWord := BitVec 9

/-- The number of a general-purpose register, R0 to R7 (R30). -/
abbrev RegIndex := Fin 8

end Sys2Proof
end

