-- ==== Sys2Proof/Syntax.lean ====
section
/-! DEFINITION. The instructions: one constructor for each row of spec/opcode_table.json (R107), its operands the raw
operand bytes `a` and `b` (R17, R104). A register operand may be any byte here: 8..255 name no register and make the
instruction raise RegisterFault (R106, R144); `Instr.wellFormed` says which terms name registers only. -/

namespace Sys2Proof

/-- The nine instructions with their operand bytes (R104, R107). -/
inductive Instr where
  | halt
  | ldi (a b : Byte)
  | print (a : Byte)
  | push (a : Byte)
  | pop (a : Byte)
  | add (a b : Byte)
  | sub (a b : Byte)
  | mul (a b : Byte)
  | div (a b : Byte)
  deriving DecidableEq, Repr

/-- The nine operations an opcode byte can select (R107). -/
inductive Opcode where
  | halt | ldi | print | push | pop | add | sub | mul | div
  deriving DecidableEq, Repr

/-- Why a sequence of bytes is no instruction. -/
inductive DecodeError where
  /-- There is no opcode byte (the fetch found none, R141). -/
  | noOpcode
  /-- The opcode byte is none of the nine (R108). -/
  | unrecognized (op : Byte)
  /-- An operand byte of this opcode is missing (R143). -/
  | missingOperand (op : Byte)
  deriving DecidableEq, Repr

/-- What decoding a sequence of bytes gives: an instruction with the bytes after it, or a rejection by name. -/
inductive Decoded where
  | ok (i : Instr) (rest : List Byte)
  | error (e : DecodeError)
  deriving DecidableEq, Repr

end Sys2Proof
end

