-- ==== Sys2Proof/WellFormed.lean ====
section
/-! DEFINITION. An instruction is well formed when every register operand names a register (R106, R144). -/

namespace Sys2Proof

/-- The operand bytes of an instruction that are register indices, in the order they are checked (R104, R144).
LDI's second operand is an immediate and is not among them. -/
def Instr.regOperands : Instr → List Byte
  | .halt => []
  | .ldi a _ => [a]
  | .print a => [a]
  | .push a => [a]
  | .pop a => [a]
  | .add a b => [a, b]
  | .sub a b => [a, b]
  | .mul a b => [a, b]
  | .div a b => [a, b]

/-- Every register operand is in 0..7 (R106). -/
def Instr.wellFormed (i : Instr) : Bool := i.regOperands.all fun a => decide (a.toNat < 8)

end Sys2Proof
end

