-- ==== Sys2Proof/Decode.lean ====
section
/-! DEFINITION. From bytes to an instruction and back (30_encoding.md). Decoding is total and rejects by name. -/

namespace Sys2Proof

/-- `N = op[7:6]`, the number of operand bytes (R101, R102). -/
def operandCount (op : Byte) : Nat := (op.extractLsb' 6 2).toNat

/-- `A = op[5]`, set for the ALU operations (R101; 90_conflicts.md C1 chooses bit 5). -/
def aluFlag (op : Byte) : Bool := op.getLsbD 5

/-- `P = op[4]`, informational (R101, R112). -/
def pcSettingFlag (op : Byte) : Bool := op.getLsbD 4

/-- `I = op[3:0]`, the identifier (R101). -/
def identifier (op : Byte) : BitVec 4 := op.extractLsb' 0 4

/-- The length in bytes of an instruction with this opcode, `1 + N` (R102). -/
def lengthOf (op : Byte) : Nat := 1 + operandCount op

/-- The opcode byte of each operation (R107). -/
def Opcode.byte : Opcode → Byte
  | .halt => 0x01#8
  | .ldi => 0x82#8
  | .print => 0x47#8
  | .push => 0x45#8
  | .pop => 0x46#8
  | .add => 0xA0#8
  | .sub => 0xA1#8
  | .mul => 0xA2#8
  | .div => 0xA3#8

/-- Table dispatch, for opcodes with bit 5 clear (R109, R148). -/
def tableDispatch (op : Byte) : Option Opcode :=
  if op = 0x01#8 then some .halt
  else if op = 0x82#8 then some .ldi
  else if op = 0x47#8 then some .print
  else if op = 0x45#8 then some .push
  else if op = 0x46#8 then some .pop
  else none

/-- ALU sub-dispatch, keyed by the literal opcode value (R109, R190). -/
def aluDispatch (op : Byte) : Option Opcode :=
  if op = 0xA0#8 then some .add
  else if op = 0xA1#8 then some .sub
  else if op = 0xA2#8 then some .mul
  else if op = 0xA3#8 then some .div
  else none

/-- The operation an opcode byte selects, by the two dispatch paths (R108, R109). -/
def decodeOpcode (op : Byte) : Option Opcode :=
  if aluFlag op then aluDispatch op else tableDispatch op

/-- Format F1: one operand byte (R103). -/
def decodeOne (op : Byte) (f : Byte → Instr) : List Byte → Decoded
  | a :: rest => .ok (f a) rest
  | [] => .error (.missingOperand op)

/-- Format F2: two operand bytes (R103). -/
def decodeTwo (op : Byte) (f : Byte → Byte → Instr) : List Byte → Decoded
  | a :: b :: rest => .ok (f a b) rest
  | _ => .error (.missingOperand op)

/-- The operand bytes of a selected operation (R103, R104). -/
def decodeOperands (op : Byte) (m : Opcode) (rest : List Byte) : Decoded :=
  match m with
  | .halt => .ok .halt rest
  | .ldi => decodeTwo op .ldi rest
  | .print => decodeOne op .print rest
  | .push => decodeOne op .push rest
  | .pop => decodeOne op .pop rest
  | .add => decodeTwo op .add rest
  | .sub => decodeTwo op .sub rest
  | .mul => decodeTwo op .mul rest
  | .div => decodeTwo op .div rest

/-- The decoder: the first instruction of a sequence of bytes (R100, R108). An illegal opcode is rejected before its
operand bytes are looked at (R142). -/
def decode : List Byte → Decoded
  | [] => .error .noOpcode
  | op :: rest =>
    match decodeOpcode op with
    | none => .error (.unrecognized op)
    | some m => decodeOperands op m rest

/-- The operation of an instruction. -/
def Instr.operation : Instr → Opcode
  | .halt => .halt
  | .ldi _ _ => .ldi
  | .print _ => .print
  | .push _ => .push
  | .pop _ => .pop
  | .add _ _ => .add
  | .sub _ _ => .sub
  | .mul _ _ => .mul
  | .div _ _ => .div

/-- The opcode byte of an instruction (R107). -/
def Instr.opcodeByte (i : Instr) : Byte := i.operation.byte

/-- The operand bytes of an instruction, in ascending addresses (R77, R103). -/
def Instr.operandBytes : Instr → List Byte
  | .halt => []
  | .ldi a b => [a, b]
  | .print a => [a]
  | .push a => [a]
  | .pop a => [a]
  | .add a b => [a, b]
  | .sub a b => [a, b]
  | .mul a b => [a, b]
  | .div a b => [a, b]

/-- The encoder: the opcode byte, then the operand bytes (R77, R100). -/
def encode (i : Instr) : List Byte := i.opcodeByte :: i.operandBytes

/-- The three bytes of a word numbered as spec/opcode_table.json numbers it: bit 0 is the least significant bit of the
first byte, the second byte is bits 15..8, the third bits 23..16; the bits from `nbits` up are zero. -/
def tableWordBytes (nbits w : Nat) : List Byte :=
  let v := w % 2 ^ nbits
  [BitVec.ofNat 8 v, BitVec.ofNat 8 (v / 2 ^ 8), BitVec.ofNat 8 (v / 2 ^ 16)]

/-- The instruction the decoder reads from a table word. -/
def decodeTableWord (nbits w : Nat) : Option Instr :=
  match decode (tableWordBytes nbits w) with
  | .ok i _ => some i
  | .error _ => none

end Sys2Proof
end

