-- ==== Sys2Proof/Config.lean ====
section
/-! DEFINITION. What is fixed for this machine (the parameter table R11), and the values the spec leaves open. -/

namespace Sys2Proof

/-- `MEM_SIZE`: the memory has 256 cells (R11, R70). -/
def Config.memSize : Nat := 256

/-- `SP_INDEX`: R7 is the stack pointer (R11, R31). -/
def Config.spIndex : RegIndex := 7

/-- `SP_RESET` (R11, R50). -/
def Config.spReset : Byte := 0xF4#8

/-- `PC_RESET` (R11, R50, R261). -/
def Config.pcReset : PcWord := 0x000#9

/-- `LOAD_BASE`: the image is copied to address 0 and up (R11, R263). -/
def Config.loadBase : Nat := 0x00

/-- The longest image that fits the memory (R11, R264). -/
def Config.maxImage : Nat := 256

/-- What a cell that nothing has written holds: memory is zero-initialised (R50, R71). -/
def Config.unlistedByte : Byte := 0x00#8

/-- The most cycles a run can take (R153, R277). -/
def Config.maxCycles : Nat := 129

/-- The OPEN parameter `gpr_reset` of R51, the reset values of R0..R6.
DESIGN CHOICE (log entry 1), unsafe: every one is zero; the spec gives no value. -/
def Config.gprReset : Fin 7 → Byte := fun _ => 0x00#8

/-- R66: a fault's exit status is non-zero, and the spec says no more; `faultExit code + 1` is that status for a fault of
that code. Free value (log entry 8). -/
opaque Config.faultExit : Nat → Nat

/-- R66, R227: a host error's exit status is non-zero; `hostErrorExit + 1` is that status. Free value (log entry 8). -/
opaque Config.hostErrorExit : Nat

/-- R65, U12: the wording of the diagnostic line for a fault of that code, at that `fpc`, with that opcode.
Free value (log entry 9). -/
opaque Config.diagnosticText : Nat → PcWord → Option Byte → List Char

end Sys2Proof
end

