-- ==== Sys2Proof/Machine/State.lean ====
section
/-! DEFINITION. The state of the core, R45's tuple `(x[0..7], pc, M, status, fault, out)`, the reasons a step stops, and the
state after reset (R50). -/

namespace Sys2Proof.Machine

open Sys2Proof

/-- The machine status (R40). -/
inductive Status where
  | running | halted | faulted
  deriving DecidableEq, Repr

/-- The six kinds of fault the core detects (R220). -/
inductive FaultKind where
  /-- Code 1: the opcode byte is none of the nine (R221). -/
  | unrecognizedOpcode
  /-- Code 2: DIV by zero (R222). -/
  | arithmeticFault
  /-- Code 3: an instruction byte outside 0x00..0xFF (R223). -/
  | addressFault
  /-- Code 4: a register operand of 8 or more (R224). -/
  | registerFault
  /-- Code 5: PUSH with SP = 0x00 (R225). -/
  | stackOverflow
  /-- Code 6: POP with SP = 0xFF (R226). -/
  | stackUnderflow
  deriving DecidableEq, Repr

/-- The fault record `(kind, fpc, opcode)` (R38). -/
structure FaultRecord where
  kind : FaultKind
  fpc : PcWord
  opcode : Option Byte
  deriving DecidableEq, Repr

/-- The memory `M` of 256 bytes (R70) as the cells that do not hold `Config.unlistedByte`, addresses rising. -/
structure Memory where
  cells : List Host.Cell
  deriving DecidableEq, Repr

/-- The complete state of the core (R45). -/
structure State where
  /-- `x[0]`..`x[7]` (R30). -/
  regs : Vector Byte 8
  /-- The program counter (R36). -/
  pc : PcWord
  /-- The memory (R70). -/
  mem : Memory
  /-- The machine status (R40). -/
  status : Status
  /-- The fault record, `none` before any fault (R38). -/
  fault : Option FaultRecord
  /-- The bytes emitted so far, oldest first (R41). -/
  out : List Byte
  deriving DecidableEq, Repr

/-- Why a step stops. The six faults of the core are NOT here: they are taken, as a next state (R230). -/
inductive Fault where
  /-- Raised by `step` at a state whose status is HALTED: no cycle happens there (R147). Safe: the machine does nothing. -/
  | machineHalted
  /-- Raised by `step` at a state whose status is FAULTED: no cycle happens there (R147, R233). Safe: the machine does
  nothing. -/
  | machineFaulted
  deriving DecidableEq, Repr

/-- What the model has no meaning for. -/
inductive Refusal where
  /-- Raised by an arm of `exec` whose instruction has no meaning yet; no arm is left so. Safe. -/
  | notModelled (mnemonic : String)
  /-- Raised by `Session.load` for an image of more than 256 bytes (R264: "a model refuses such a launch"). Safe. -/
  | imageTooLong
  /-- Raised by `Session.load` after the first cycle (R265: "a model refuses the launch"). Safe. -/
  | loadAfterFirstCycle
  /-- Raised by `Session.load` after a previous load (R265). Safe. -/
  | loadTwice
  deriving DecidableEq, Repr

/-- The state after reset for a given value of the open parameter `gpr_reset` (R50, R51, R260). -/
def State.resetWith (gpr : Fin 7 → Byte) : State where
  regs := #v[gpr 0, gpr 1, gpr 2, gpr 3, gpr 4, gpr 5, gpr 6, Config.spReset]
  pc := Config.pcReset
  mem := ⟨[]⟩
  status := .running
  fault := none
  out := []

/-- The state after reset (R50, R260). R0..R6 hold `Config.gprReset`: DESIGN CHOICE (log entry 1), unsafe. -/
def State.reset : State := State.resetWith Config.gprReset

end Sys2Proof.Machine
end

