-- ==== Sys2Proof/Machine/Ops.lean ====
section
/-! DEFINITION. The named operations over memory, registers, the program counter and the output port, fetching an
instruction's bytes, and taking a fault (R230). There is no return from a fault (R236). -/

namespace Sys2Proof.Machine

open Sys2Proof

/-! ### Memory -/

/-- The value of the first cell listed at address `a`, and `Config.unlistedByte` where none is. -/
def lookupCell (a : Nat) : List Host.Cell → Byte
  | [] => Config.unlistedByte
  | c :: cs => if c.1 = a then c.2 else lookupCell a cs

/-- The list without its cells at address `a`. -/
def eraseCell (a : Nat) : List Host.Cell → List Host.Cell
  | [] => []
  | c :: cs => if c.1 = a then eraseCell a cs else c :: eraseCell a cs

/-- The list with a cell put before the first one of a higher address. -/
def insertCell (a : Nat) (v : Byte) : List Host.Cell → List Host.Cell
  | [] => [(a, v)]
  | c :: cs => if a < c.1 then (a, v) :: c :: cs else c :: insertCell a v cs

/-- Addresses from `lo` up, strictly rising and below 256, no cell holding what an unlisted one holds. -/
def cellsWf (lo : Nat) : List Host.Cell → Bool
  | [] => true
  | c :: cs =>
    decide (lo ≤ c.1) && decide (c.1 < Config.memSize) && decide (c.2 ≠ Config.unlistedByte) && cellsWf (c.1 + 1) cs

/-- The canonical form of a memory: equal memories are equal data. -/
def Memory.wf (m : Memory) : Bool := cellsWf 0 m.cells

/-- `M[a]` for an address inside the memory, an 8-bit value (R15, R75). -/
def Memory.read (m : Memory) (a : Byte) : Byte := lookupCell a.toNat m.cells

/-- `MemRead(a, 1)`: the cell for `a <= 0xFF`; `none`, for which the cycle raises AddressFault, from 0x100 up (R73). -/
def Memory.read? (m : Memory) (a : Nat) : Option Byte :=
  if a < Config.memSize then some (lookupCell a m.cells) else none

/-- `MemWrite(a, 1, v)`: every address presented to it is an 8-bit value (R74). -/
def Memory.write (m : Memory) (a : Byte) (v : Byte) : Memory :=
  ⟨if v = Config.unlistedByte then eraseCell a.toNat m.cells
    else insertCell a.toNat v (eraseCell a.toNat m.cells)⟩

/-- Bytes written one after another at ascending addresses from `a` up (R61, R263). -/
def Memory.writeBytes (m : Memory) (a : Nat) : List Byte → Memory
  | [] => m
  | v :: vs => Memory.writeBytes (m.write (BitVec.ofNat 8 a) v) (a + 1) vs

/-! ### Registers, program counter, output -/

/-- `x[i]` (R14). -/
def State.readReg (s : State) (r : RegIndex) : Byte := s.regs[r]

/-- `x[i] <- v` (R14, R35). -/
def State.writeReg (s : State) (r : RegIndex) (v : Byte) : State := { s with regs := s.regs.set r v }

/-- `SP`, another name for `x[7]` (R14, R31). -/
def State.sp (s : State) : Byte := s.readReg Config.spIndex

/-- `SP <- v` (R31). -/
def State.setSp (s : State) (v : Byte) : State := s.writeReg Config.spIndex v

/-- `pc <- t` (R14). -/
def State.setPc (s : State) (t : PcWord) : State := { s with pc := t }

/-- The sequential advance past an instruction with this opcode, by `1 + N` (R37, R145). -/
def State.advance (s : State) (op : Byte) : State := s.setPc (s.pc + BitVec.ofNat 9 (lengthOf op))

/-- `M[a] <- v` (R74). -/
def State.store (s : State) (a v : Byte) : State := { s with mem := s.mem.write a v }

/-- `emit(v)`: the byte is appended to the output port (R16, R41). -/
def State.emit (s : State) (v : Byte) : State := { s with out := s.out ++ [v] }

/-- `status <- HALTED` (R150). -/
def State.halt (s : State) : State := { s with status := .halted }

/-! ### Taking a fault -/

/-- The code of a fault kind (R220). -/
def FaultKind.code : FaultKind → Nat
  | .unrecognizedOpcode => 1
  | .arithmeticFault => 2
  | .addressFault => 3
  | .registerFault => 4
  | .stackOverflow => 5
  | .stackUnderflow => 6

/-- Fault entry: `status <- FAULTED`, `fault <- (kind, pc, opcode)`, and nothing else is written (R230). -/
def State.raise (s : State) (k : FaultKind) (op : Option Byte) : State :=
  { s with status := .faulted, fault := some ⟨k, s.pc, op⟩ }

/-- The cycle ends in fault entry (R16, R230). -/
def takeFault (k : FaultKind) (op : Option Byte) (s : State) : Host.Outcome State Fault Refusal :=
  .next (s.raise k op)

/-- The instruction ends without a fault: its effects stand and `pc` advances past it (R145). -/
def complete (op : Byte) (s : State) : Host.Outcome State Fault Refusal := .next (s.advance op)

/-! ### Fetch -/

/-- Up to `n` bytes at ascending addresses from `a` up, ending before the first address outside the memory (R73, R77). -/
def fetchFrom (m : Memory) (a : Nat) : Nat → List Byte
  | 0 => []
  | n + 1 =>
    match m.read? a with
    | none => []
    | some v => v :: fetchFrom m (a + 1) n

/-- The bytes at `pc`, `pc+1` and `pc+2` that lie inside the memory (R100, R141, R143). -/
def fetchBytes (s : State) : List Byte := fetchFrom s.mem s.pc.toNat 3

/-! ### Placing one instruction for the next cycle -/

/-- Where an instruction of the greatest length is placed so that the next cycle fetches all of it: at `pc`, or at 0 where
three bytes do not fit between `pc` and the end of the memory (log entry 4). -/
def placeAt (s : State) : Nat := if s.pc.toNat + 3 ≤ Config.memSize then s.pc.toNat else 0

/-- The state with these bytes where the next cycle fetches, and able to run a cycle (log entry 4). -/
def State.placeBytes (s : State) (bs : List Byte) : State :=
  { s with
    pc := BitVec.ofNat 9 (placeAt s)
    mem := s.mem.writeBytes (placeAt s) bs
    status := .running
    fault := none }

end Sys2Proof.Machine
end

