-- ==== Sys2Proof/Machine/Operands.lean ====
section
/-! DEFINITION. The operand forms (R104): a register index, checked before the handler runs (R106, R144), and LDI's
immediate, which is the operand byte itself (R105). -/

namespace Sys2Proof.Machine

open Sys2Proof

/-- The register a register operand names: the whole byte is the index, and 8..255 name none (R106). -/
def regOperand (a : Byte) : Option RegIndex := if h : a.toNat < 8 then some ⟨a.toNat, h⟩ else none

/-- The immediate: the whole operand byte, unsigned, unchanged (R105). -/
def immOperand (b : Byte) : Byte := b

/-- The register operand check of an instruction with one register operand, before its handler (R144). -/
def withReg (op a : Byte) (s : State) (handler : RegIndex → Host.Outcome State Fault Refusal) :
    Host.Outcome State Fault Refusal :=
  match regOperand a with
  | none => takeFault .registerFault (some op) s
  | some r => handler r

/-- The register operand check of an instruction with two, `a` before `b` (R144). -/
def withRegs (op a b : Byte) (s : State) (handler : RegIndex → RegIndex → Host.Outcome State Fault Refusal) :
    Host.Outcome State Fault Refusal :=
  withReg op a s fun ra => withReg op b s fun rb => handler ra rb

end Sys2Proof.Machine
end

