-- ==== Sys2Proof/Machine/Flags.lean ====
section
/-! DEFINITION. The arithmetic results. The machine has no flags (R42): an ALU operation computes one result on
mathematical integers, reduces it modulo 256 (R18, R191) and writes it to its first register; nothing else. -/

namespace Sys2Proof.Machine

open Sys2Proof

/-- `v mod 256` as a byte; for a negative `v`, its representative in 0..255 (R18). -/
def narrow (v : Int) : Byte := BitVec.ofInt 8 v

/-- The result of ADD (R192). -/
def addResult (x y : Byte) : Byte := narrow ((x.toNat : Int) + (y.toNat : Int))

/-- The result of SUB, first operand minus second (R194). -/
def subResult (x y : Byte) : Byte := narrow ((x.toNat : Int) - (y.toNat : Int))

/-- The result of MUL, the low 8 bits of the product (R196). -/
def mulResult (x y : Byte) : Byte := narrow ((x.toNat : Int) * (y.toNat : Int))

/-- The result of DIV for a divisor other than zero: the unsigned quotient (R198). -/
def divResult (x y : Byte) : Byte := narrow ((x.toNat / y.toNat : Nat) : Int)

/-- An ALU operation that always completes: both registers are read before the first is written (R190, R191). -/
def aluOperation (op : Byte) (result : Byte → Byte → Byte) (ra rb : RegIndex) (s : State) :
    Host.Outcome State Fault Refusal :=
  complete op (s.writeReg ra (result (s.readReg ra) (s.readReg rb)))

end Sys2Proof.Machine
end

