-- ==== Sys2Proof/Machine/Arith.lean ====
section
/-! DEFINITION. ADD, SUB, MUL and DIV (42_alu.md). -/

namespace Sys2Proof.Machine

open Sys2Proof

/-- ADD Ra, Rb (R192). -/
def execAdd (a b : Byte) (s : State) : Host.Outcome State Fault Refusal :=
  withRegs Opcode.add.byte a b s fun ra rb => aluOperation Opcode.add.byte addResult ra rb s

/-- SUB Ra, Rb (R194). -/
def execSub (a b : Byte) (s : State) : Host.Outcome State Fault Refusal :=
  withRegs Opcode.sub.byte a b s fun ra rb => aluOperation Opcode.sub.byte subResult ra rb s

/-- MUL Ra, Rb (R196). -/
def execMul (a b : Byte) (s : State) : Host.Outcome State Fault Refusal :=
  withRegs Opcode.mul.byte a b s fun ra rb => aluOperation Opcode.mul.byte mulResult ra rb s

/-- DIV Ra, Rb: ArithmeticFault where the divisor is zero, else the quotient (R198, R222). -/
def execDiv (a b : Byte) (s : State) : Host.Outcome State Fault Refusal :=
  withRegs Opcode.div.byte a b s fun ra rb =>
    if s.readReg rb = 0x00#8 then takeFault .arithmeticFault (some Opcode.div.byte) s
    else aluOperation Opcode.div.byte divResult ra rb s

end Sys2Proof.Machine
end

