-- ==== Sys2Proof/Machine/Control.lean ====
section
/-! DEFINITION. HALT (40_cycle_and_halt.md section 2). There are no branches, traps or returns (R152, R154). -/

namespace Sys2Proof.Machine

open Sys2Proof

/-- HALT: `status <- HALTED`; `pc` keeps the address of the HALT byte (R150, R37; 90_conflicts.md C5). -/
def execHalt (s : State) : Host.Outcome State Fault Refusal := .next s.halt

end Sys2Proof.Machine
end

