-- ==== Sys2Proof/Machine/DataMovement.lean ====
section
/-! DEFINITION. LDI, PRINT, PUSH and POP (41_data_movement.md). -/

namespace Sys2Proof.Machine

open Sys2Proof

/-- LDI Ra, imm: `x[a] <- b` (R161). -/
def execLdi (a b : Byte) (s : State) : Host.Outcome State Fault Refusal :=
  withReg Opcode.ldi.byte a s fun ra => complete Opcode.ldi.byte (s.writeReg ra (immOperand b))

/-- PRINT Ra: `emit(x[a])` (R165). -/
def execPrint (a : Byte) (s : State) : Host.Outcome State Fault Refusal :=
  withReg Opcode.print.byte a s fun ra => complete Opcode.print.byte (s.emit (s.readReg ra))

/-- PUSH's effect on SP and memory: SP is decremented, then the register, read after that, is stored at the new SP
(R170; PUSH R7 stores the decremented SP). -/
def pushEffect (ra : RegIndex) (s : State) : State :=
  let s1 := s.setSp (s.sp - 1)
  s1.store s1.sp (s1.readReg ra)

/-- PUSH Ra: StackOverflow where SP is 0x00, else the push (R170). -/
def execPush (a : Byte) (s : State) : Host.Outcome State Fault Refusal :=
  withReg Opcode.push.byte a s fun ra =>
    if s.sp = 0x00#8 then takeFault .stackOverflow (some Opcode.push.byte) s
    else complete Opcode.push.byte (pushEffect ra s)

/-- POP's effect on the registers: the register is loaded from the cell at SP, then SP, read after that, is incremented
(R175; POP R7 leaves the popped byte plus one). -/
def popEffect (ra : RegIndex) (s : State) : State :=
  let s1 := s.writeReg ra (s.mem.read s.sp)
  s1.setSp (s1.sp + 1)

/-- POP Ra: StackUnderflow where SP is 0xFF, else the pop (R175). -/
def execPop (a : Byte) (s : State) : Host.Outcome State Fault Refusal :=
  withReg Opcode.pop.byte a s fun ra =>
    if s.sp = 0xFF#8 then takeFault .stackUnderflow (some Opcode.pop.byte) s
    else complete Opcode.pop.byte (popEffect ra s)

end Sys2Proof.Machine
end

