-- ==== Sys2Proof/Machine/Cycle.lean ====
section
/-! DEFINITION. One cycle of R140: fetch, decode, and either a fault of fetch or decode, or the instruction's meaning. -/

namespace Sys2Proof.Machine

open Sys2Proof

/-- The fault a cycle takes when no instruction was decoded (R141, R142, R143). -/
def decodeFault (e : DecodeError) (s : State) : Host.Outcome State Fault Refusal :=
  match e with
  | .noOpcode => takeFault .addressFault none s
  | .unrecognized op => takeFault .unrecognizedOpcode (some op) s
  | .missingOperand op => takeFault .addressFault (some op) s

/-- One cycle, for a machine that is RUNNING (R140). -/
def cycle (s : State) : Host.Outcome State Fault Refusal :=
  match decode (fetchBytes s) with
  | .ok i _ => exec i s
  | .error e => decodeFault e s

end Sys2Proof.Machine
end

