-- ==== Sys2Proof/Machine/Step.lean ====
section
/-! DEFINITION. The step: one cycle while RUNNING, none in a terminal state (R147). -/

namespace Sys2Proof.Machine

open Sys2Proof

/-- One step of the machine. A terminal state has none (R147, R233; log entry 3). -/
def step (s : State) : Host.Outcome State Fault Refusal :=
  match s.status with
  | .running => cycle s
  | .halted => .fault .machineHalted
  | .faulted => .fault .machineFaulted

/-- The state with one table word's instruction stored where the next step fetches (log entry 4). -/
def State.withFetchWord (s : State) (nbits w : Nat) : State := s.placeBytes (tableWordBytes nbits w)

end Sys2Proof.Machine
end

