-- ==== Sys2Proof/Machine/Boot.lean ====
section
/-! DEFINITION. Reset, load and run as the host sees them (R60 to R62, R260 to R268). A session is one machine with what
R265 needs to say when a load is refused (log entry 5). -/

namespace Sys2Proof.Machine

open Sys2Proof

/-- How far the boot has come (R265, R268). -/
inductive BootPhase where
  /-- Reset, nothing loaded, no cycle run. -/
  | fresh
  /-- An image is loaded, no cycle run. -/
  | loaded
  /-- The first cycle has run. -/
  | started
  deriving DecidableEq, Repr

/-- One machine instance as the host sees it: the core's state (R45) and the phase of the boot. -/
structure Session where
  core : State
  phase : BootPhase
  deriving DecidableEq, Repr

/-- `M[LOAD_BASE + k] <- image[k]` (R61, R263). -/
def loadImage (img : List Byte) (s : State) : State :=
  { s with mem := s.mem.writeBytes Config.loadBase img }

/-- Up to `n` cycles, while the status is RUNNING (R62). -/
def cycles : Nat → State → State
  | 0, s => s
  | n + 1, s =>
    match step s with
    | .next t => cycles n t
    | .fault _ => s
    | .refused _ => s

/-- A whole run of the core: no run takes more than `Config.maxCycles` cycles (R62, R153, R277). -/
def runCore (s : State) : State := cycles Config.maxCycles s

/-- The reset interface for a value of `gpr_reset`: nothing of the previous run is kept (R260). -/
def Session.resetWith (gpr : Fin 7 → Byte) (_previous : Session) : Session := ⟨State.resetWith gpr, .fresh⟩

/-- The reset interface (R60, R260). -/
def Session.reset (previous : Session) : Session := previous.resetWith Config.gprReset

/-- The machine as constructed, the same as after reset (R260; 92_eei_decisions.md D23). -/
def Session.constructed : Session := ⟨State.reset, .fresh⟩

/-- The load interface: once, after reset and before the first cycle, at most 256 bytes (R61, R263 to R265). -/
def Session.load (img : List Byte) (m : Session) : Host.Outcome Session Fault Refusal :=
  match m.phase with
  | .loaded => .refused .loadTwice
  | .started => .refused .loadAfterFirstCycle
  | .fresh => if Config.maxImage < img.length then .refused .imageTooLong else .next ⟨loadImage img m.core, .loaded⟩

/-- The run interface: cycles while RUNNING; none when the machine is already HALTED or FAULTED (R62). -/
def Session.run (m : Session) : Session :=
  if m.core.status = .running then ⟨runCore m.core, .started⟩ else m

end Sys2Proof.Machine
end

