-- ==== Sys2Proof/Machine/HostView.lean ====
section
/-! DEFINITION. What the host reads and makes of it: the output text (R63), the diagnostic (R65, R232), the exit status (R66). -/

namespace Sys2Proof.Machine

open Sys2Proof

/-- The character of a decimal digit. -/
def digitChar (d : Nat) : Char := Char.ofNat (48 + d)

/-- A byte as its unsigned decimal value: no sign, no leading zeros (R63). -/
def decimalText (v : Byte) : List Char :=
  let n := v.toNat
  if n < 10 then [digitChar n]
  else if n < 100 then [digitChar (n / 10), digitChar (n % 10)]
  else [digitChar (n / 100), digitChar (n / 10 % 10), digitChar (n % 10)]

/-- The line end of the output text. DESIGN CHOICE (log entry 10). -/
def lineEnd : List Char := [Char.ofNat 10]

/-- The output text: one value a line, in the order PRINT emitted them (R41, R63). -/
def renderOut : List Byte → List Char
  | [] => []
  | v :: vs => decimalText v ++ lineEnd ++ renderOut vs

/-- The code of a fault record, 0 where there is none (R220). -/
def faultCode : Option FaultRecord → Nat
  | none => 0
  | some r => r.kind.code

/-- The diagnostic the host can give, from the fault record (R65, R232); its wording is free (log entry 9). -/
def diagnostic (s : State) : Option (List Char) :=
  match s.status with
  | .running => none
  | .halted => none
  | .faulted => s.fault.map fun r => Config.diagnosticText r.kind.code r.fpc r.opcode

/-- The exit status: zero on HALTED, non-zero on FAULTED, none while RUNNING (R66; log entry 8). -/
def exitStatus (s : State) : Option Nat :=
  match s.status with
  | .running => none
  | .halted => some 0
  | .faulted => some (Config.faultExit (faultCode s.fault) + 1)

end Sys2Proof.Machine
end

