-- ==== Sys2Proof/Machine/Image.lean ====
section
/-! DEFINITION. The program image as text (R118) and the boot from it (R266, R268). The host owns both (R7); they are
modelled so that what the core is handed, and when it is never started, is said. -/

namespace Sys2Proof.Machine

open Sys2Proof

/-- The text of a line before its comment (R118). -/
def stripComment : List Char → List Char
  | [] => []
  | c :: cs => if c = '#' then [] else c :: stripComment cs

/-- The white space a line may hold around its literal. DESIGN CHOICE (log entry 11). -/
def isBlankChar (c : Char) : Bool := decide (c.toNat = 32) || decide (c.toNat = 9) || decide (c.toNat = 13)

/-- A text without the blanks at its front. -/
def dropBlanks : List Char → List Char
  | [] => []
  | c :: cs => if isBlankChar c then dropBlanks cs else c :: cs

/-- A line without its comment and without the blanks around the rest. -/
def lineContent (line : List Char) : List Char := (dropBlanks (dropBlanks (stripComment line)).reverse).reverse

/-- The value of binary digits, the first the most significant, on top of `acc`; `none` at any other character. -/
def binaryValue (acc : Nat) : List Char → Option Nat
  | [] => some acc
  | c :: cs => if c = '0' then binaryValue (2 * acc) cs else if c = '1' then binaryValue (2 * acc + 1) cs else none

/-- The byte of an 8-character binary literal (R118). -/
def binaryLiteral (cs : List Char) : Option Byte :=
  if cs.length = 8 then (binaryValue 0 cs).map (BitVec.ofNat 8) else none

/-- What the host's parser makes of an image text. -/
inductive ImageResult where
  | image (bytes : List Byte)
  /-- MalformedProgram, with the line that is no literal (R118, R227). -/
  | malformedProgram (line : List Char)
  deriving DecidableEq, Repr

/-- The image of a text given as its lines: blank and comment-only lines are skipped, every other line is one byte,
stored in order (R118). -/
def parseImage : List (List Char) → ImageResult
  | [] => .image []
  | line :: lines =>
    if lineContent line = [] then parseImage lines
    else
      match binaryLiteral (lineContent line) with
      | none => .malformedProgram line
      | some v =>
        match parseImage lines with
        | .image vs => .image (v :: vs)
        | .malformedProgram l => .malformedProgram l

/-- How a boot ends. -/
inductive LaunchResult where
  /-- The run has returned; the host reads `out`, `status` and `fault` (R268). -/
  | ran (m : Session)
  /-- No run was ever started, because of the text (R266). -/
  | malformedProgram (line : List Char)
  /-- No run was ever started, because the load was refused (R264). -/
  | refusedLoad (r : Refusal)
  deriving DecidableEq, Repr

/-- The boot of R268: reset, load of the image or a MalformedProgram error that ends the boot, run. -/
def launch (lines : List (List Char)) : LaunchResult :=
  match parseImage lines with
  | .malformedProgram l => .malformedProgram l
  | .image img =>
    match Session.constructed.load img with
    | .next m => .ran m.run
    | .refused r => .refusedLoad r
    | .fault _ => .ran Session.constructed

/-- The entry point's exit status: the core's (R66), and non-zero on a host error (R66, R227; log entry 8). -/
def launchExit : LaunchResult → Option Nat
  | .ran m => exitStatus m.core
  | .malformedProgram _ => some (Config.hostErrorExit + 1)
  | .refusedLoad _ => some (Config.hostErrorExit + 1)

end Sys2Proof.Machine
end

