-- ==== Sys2Proof/Machine/Assembly.lean ====
section
/-! DEFINITION. The assembly notation of R116: the mnemonics and their aliases, and one line of it read and written. The source
defines no assembler; the notation is the spec's own (92_eei_decisions.md D14). There are no pseudo-instructions (R117). -/

namespace Sys2Proof.Machine

open Sys2Proof

/-- The canonical mnemonic (R107, R116). -/
def mnemonicText : Opcode → List Char
  | .halt => ['H', 'A', 'L', 'T']
  | .ldi => ['L', 'D', 'I']
  | .print => ['P', 'R', 'I', 'N', 'T']
  | .push => ['P', 'U', 'S', 'H']
  | .pop => ['P', 'O', 'P']
  | .add => ['A', 'D', 'D']
  | .sub => ['S', 'U', 'B']
  | .mul => ['M', 'U', 'L']
  | .div => ['D', 'I', 'V']

/-- The source's name, an accepted alias (R107, R116); HALT and ADD have the one name. -/
def aliasText : Opcode → List Char
  | .halt => ['H', 'A', 'L', 'T']
  | .ldi => ['L', 'O', 'A', 'D', '-', 'I', 'M', 'M', 'E', 'D', 'I', 'A', 'T', 'E']
  | .print => ['P', 'R', 'I', 'N', 'T', '-', 'R', 'E', 'G', 'I', 'S', 'T', 'E', 'R']
  | .push => ['S', 'T', 'A', 'C', 'K', '-', 'P', 'U', 'S', 'H']
  | .pop => ['S', 'T', 'A', 'C', 'K', '-', 'P', 'O', 'P']
  | .add => ['A', 'D', 'D']
  | .sub => ['S', 'U', 'B', 'T', 'R', 'A', 'C', 'T']
  | .mul => ['M', 'U', 'L', 'T', 'I', 'P', 'L', 'Y']
  | .div => ['D', 'I', 'V', 'I', 'D', 'E']

/-- All operations, in the order of R107. -/
def allOpcodes : List Opcode := [.halt, .ldi, .print, .push, .pop, .add, .sub, .mul, .div]

/-- The operation a mnemonic or an alias names (R116). -/
def opcodeOfText (cs : List Char) : Option Opcode :=
  allOpcodes.find? fun m => decide (cs = mnemonicText m) || decide (cs = aliasText m)

/-- A digit's value in a base of at most 16; hexadecimal letters in either case (log entry 14). -/
def digitValue (base : Nat) (c : Char) : Option Nat :=
  let n := c.toNat
  let d := if 48 ≤ n ∧ n < 58 then n - 48 else if 65 ≤ n ∧ n < 71 then n - 55 else if 97 ≤ n ∧ n < 103 then n - 87 else 16
  if d < base then some d else none

/-- The value of digits on top of `acc`; `none` at any other character. -/
def digitsValue (base acc : Nat) : List Char → Option Nat
  | [] => some acc
  | c :: cs =>
    match digitValue base c with
    | none => none
    | some d => digitsValue base (base * acc + d) cs

/-- A number that fits a byte, from at least one digit. -/
def byteOfDigits (base : Nat) (cs : List Char) : Option Byte :=
  match cs, digitsValue base 0 cs with
  | _ :: _, some n => if n < 256 then some (BitVec.ofNat 8 n) else none
  | _, _ => none

/-- An immediate: decimal, or hexadecimal after `0x` (R116). -/
def immediateOfText : List Char → Option Byte
  | '0' :: 'x' :: cs => byteOfDigits 16 cs
  | cs => byteOfDigits 10 cs

/-- A register, `R0` to `R7` (R116). -/
def registerOfText : List Char → Option Byte
  | ['R', c] =>
    match digitValue 8 c with
    | none => none
    | some d => some (BitVec.ofNat 8 d)
  | _ => none

/-- A text cut at its first `sep`; no second part where there is none. -/
def cutAt (sep : Char) : List Char → List Char × Option (List Char)
  | [] => ([], none)
  | c :: cs => if c = sep then ([], some cs) else (c :: (cutAt sep cs).1, (cutAt sep cs).2)

/-- The text without blanks at its front and its end. -/
def trimText (cs : List Char) : List Char := (dropBlanks (dropBlanks cs).reverse).reverse

/-- One register operand. -/
def parseOne (f : Byte → Instr) (operands : List Char) : Option Instr := (registerOfText (trimText operands)).map f

/-- Two operands separated by a comma, the second read by `second`. -/
def parseTwo (f : Byte → Byte → Instr) (second : List Char → Option Byte) (operands : List Char) : Option Instr :=
  match cutAt ',' operands with
  | (_, none) => none
  | (x, some y) =>
    match registerOfText (trimText x), second (trimText y) with
    | some a, some b => some (f a b)
    | _, _ => none

/-- One line of assembly: a mnemonic, a space, then the operands in encoding order (R116). -/
def parseAssembly (line : List Char) : Option Instr :=
  let cut := cutAt ' ' (trimText line)
  let operands := cut.2.getD []
  match opcodeOfText cut.1 with
  | none => none
  | some .halt => if trimText operands = [] then some .halt else none
  | some .ldi => parseTwo .ldi immediateOfText operands
  | some .print => parseOne .print operands
  | some .push => parseOne .push operands
  | some .pop => parseOne .pop operands
  | some .add => parseTwo .add registerOfText operands
  | some .sub => parseTwo .sub registerOfText operands
  | some .mul => parseTwo .mul registerOfText operands
  | some .div => parseTwo .div registerOfText operands

/-- A register's name; only 0 to 7 name one (R106, R116). -/
def registerText (a : Byte) : List Char := ['R', digitChar a.toNat]

/-- An instruction in the notation of R116, immediates in decimal. -/
def assemblyText (i : Instr) : List Char :=
  match i with
  | .halt => mnemonicText .halt
  | .ldi a b => mnemonicText .ldi ++ ' ' :: registerText a ++ [',', ' '] ++ decimalText b
  | .print a => mnemonicText .print ++ ' ' :: registerText a
  | .push a => mnemonicText .push ++ ' ' :: registerText a
  | .pop a => mnemonicText .pop ++ ' ' :: registerText a
  | .add a b => mnemonicText .add ++ ' ' :: registerText a ++ [',', ' '] ++ registerText b
  | .sub a b => mnemonicText .sub ++ ' ' :: registerText a ++ [',', ' '] ++ registerText b
  | .mul a b => mnemonicText .mul ++ ' ' :: registerText a ++ [',', ' '] ++ registerText b
  | .div a b => mnemonicText .div ++ ' ' :: registerText a ++ [',', ' '] ++ registerText b

end Sys2Proof.Machine
end

