-- ==== Sys2Proof/Safety.lean ====
section
/-! DEFINITION. The terms claims use: the nine opcodes and the registers each instruction reads and writes, as the spec lists
them; the fault a cycle must take; a legal fault record; the invariant; a run that ends normally. -/

namespace Sys2Proof

/-- The register indices an instruction reads (R33). -/
def Instr.readRegs : Instr → List Nat
  | .halt => []
  | .ldi _ _ => []
  | .print a => [a.toNat]
  | .push a => [7, a.toNat]
  | .pop _ => [7]
  | .add a b => [a.toNat, b.toNat]
  | .sub a b => [a.toNat, b.toNat]
  | .mul a b => [a.toNat, b.toNat]
  | .div a b => [a.toNat, b.toNat]

/-- The register indices an instruction writes (R33). -/
def Instr.writtenRegs : Instr → List Nat
  | .halt => []
  | .ldi a _ => [a.toNat]
  | .print _ => []
  | .push _ => [7]
  | .pop a => [a.toNat, 7]
  | .add a _ => [a.toNat]
  | .sub a _ => [a.toNat]
  | .mul a _ => [a.toNat]
  | .div a _ => [a.toNat]

end Sys2Proof

namespace Sys2Proof.Machine

open Sys2Proof

/-- The nine defined opcodes in the order of R140's pseudocode. -/
def definedOpcodes : List Byte := [0x01#8, 0x82#8, 0x47#8, 0x45#8, 0x46#8, 0xA0#8, 0xA1#8, 0xA2#8, 0xA3#8]

/-- The four ALU opcodes (R109). -/
def aluOpcodes : List Byte := [0xA0#8, 0xA1#8, 0xA2#8, 0xA3#8]

/-- The fault a cycle from `s` must take, the first that applies in R235's order, written over the bytes in memory and not
through the decoder: opcode fetch, opcode, operand fetch, register operands, the instruction's own fault. -/
def expectedFault (s : State) : Option (FaultKind × Option Byte) :=
  let p := s.pc.toNat
  if 0x100 ≤ p then some (.addressFault, none)
  else
    let op := lookupCell p s.mem.cells
    let a := lookupCell (p + 1) s.mem.cells
    let b := lookupCell (p + 2) s.mem.cells
    if op ∉ definedOpcodes then some (.unrecognizedOpcode, some op)
    else if 0x100 ≤ p + op.toNat / 64 then some (.addressFault, some op)
    else if op ≠ 0x01#8 ∧ 8 ≤ a.toNat then some (.registerFault, some op)
    else if op ∈ aluOpcodes ∧ 8 ≤ b.toNat then some (.registerFault, some op)
    else if op = 0xA3#8 ∧ s.regs[b.toNat]? = some 0x00#8 then some (.arithmeticFault, some op)
    else if op = 0x45#8 ∧ s.regs[7] = 0x00#8 then some (.stackOverflow, some op)
    else if op = 0x46#8 ∧ s.regs[7] = 0xFF#8 then some (.stackUnderflow, some op)
    else none

/-- The state fault entry must leave: `status` and `fault` written, everything else as before (R230). Written over the
fields, not through the model's own operation. -/
def faultedState (s : State) (k : FaultKind) (op : Option Byte) : State :=
  { s with status := .faulted, fault := some ⟨k, s.pc, op⟩ }

/-- The meanings of several instructions, one after another. -/
def execAll : List Instr → State → Host.Outcome State Fault Refusal
  | [], s => .next s
  | i :: is, s =>
    match exec i s with
    | .next t => execAll is t
    | .fault r => .fault r
    | .refused r => .refused r

/-- A record that R220's table allows, for a fault at that address with that opcode. -/
def FaultRecord.legal (r : FaultRecord) : Prop :=
  match r.kind with
  | .unrecognizedOpcode => ∃ op, r.opcode = some op ∧ op ∉ definedOpcodes
  | .arithmeticFault => r.opcode = some 0xA3#8
  | .addressFault =>
    (r.opcode = none ∧ 0x100 ≤ r.fpc.toNat) ∨
    (∃ op, r.opcode = some op ∧ op ∈ definedOpcodes ∧ 0x100 ≤ r.fpc.toNat + op.toNat / 64)
  | .registerFault => ∃ op, r.opcode = some op ∧ op ∈ definedOpcodes ∧ op ≠ 0x01#8
  | .stackOverflow => r.opcode = some 0x45#8
  | .stackUnderflow => r.opcode = some 0x46#8

/-- What every reachable state is. -/
structure State.Inv (s : State) : Prop where
  /-- The memory is in its canonical form. -/
  memoryCanonical : s.mem.wf = true
  /-- The program counter is at most 0x100 (R36). -/
  pcInRange : s.pc.toNat ≤ 0x100
  /-- There is a fault record exactly in FAULTED (R38, R230). -/
  recordIffFaulted : s.fault.isSome = true ↔ s.status = .faulted
  /-- The record is precise: its `fpc` is `pc`, its opcode the byte in memory there (none at 0x100), and its kind is one
  that R220 allows with them. -/
  recordPrecise : ∀ r, s.fault = some r → r.fpc = s.pc ∧ r.opcode = s.mem.read? s.pc.toNat ∧ r.legal

/-- A run from `s` that ends normally: HALTED and not FAULTED (R64). -/
def State.EndsNormally (s : State) : Prop := (runCore s).status = .halted

end Sys2Proof.Machine
end

