-- ==== Sys2Proof/Certificates/Slice0/Obligations.lean ====
section
/-! DEFINITION. The statements for the provers, each a rule of spec/ or derived from its sections. A docstring that names a
decision D<n> says that the rule rests on the spec's own choice (92_eei_decisions.md). -/

open Sys2Proof Sys2Proof.Machine

/-! ### Encoding -/

/-- Decoding the encoding of any instruction, whatever bytes follow it, gives that instruction and those bytes: every operand
at every value its byte admits (R100, R103, R107). -/
def Obligations.DecodeOfEncodeIsIdentity : Prop :=
  ∀ (i : Instr) (rest : List Byte), decode (encode i ++ rest) = .ok i rest

/-- Where the decoder gives an instruction, the bytes it read are that instruction's encoding: no two words decode to one
instruction, and no bit is ignored (R107, R113). -/
def Obligations.EncodeOfDecodeIsIdentity : Prop :=
  ∀ (bs rest : List Byte) (i : Instr), decode bs = .ok i rest → bs = encode i ++ rest

/-- The opcode set is closed: exactly the nine bytes of R107 select an operation, whichever bytes follow, and every other
byte is rejected by name (R108, R111; the closed set is the spec's decision D2). -/
def Obligations.OpcodeSetIsExactlyTheNine : Prop :=
  (∀ op : Byte, op ∉ definedOpcodes → ∀ rest, decode (op :: rest) = .error (.unrecognized op)) ∧
  (∀ op : Byte, op ∈ definedOpcodes → ∃ m, decodeOpcode op = some m ∧ m.byte = op) ∧
  definedOpcodes.Nodup ∧ definedOpcodes.length = 9

/-- An instruction's length is `1 + op[7:6]`, read off its first byte, and that is also the pc advance of every completed
instruction but HALT (R102). -/
def Obligations.LengthComesFromOpcodeBits : Prop :=
  ∀ i : Instr, ∃ (op : Byte) (operands : List Byte), encode i = op :: operands ∧
    (encode i).length = 1 + op.toNat / 64 ∧
    (i ≠ .halt → ∀ s t, s.status = .running → exec i s = .next t → t.status ≠ .faulted →
      t.pc = s.pc + BitVec.ofNat 9 (1 + op.toNat / 64))

/-- Words written out bit by bit from R103 and R107 decode to the instructions they stand for. -/
def Obligations.WrittenOutWordsDecode : Prop :=
  decode [0b00000001#8] = .ok .halt [] ∧
  decode [0b10000010#8, 0b00000000#8, 0b00001000#8] = .ok (.ldi 0 8) [] ∧
  decode [0b01000111#8, 0b00000011#8] = .ok (.print 3) [] ∧
  decode [0b01000101#8, 0b00000111#8] = .ok (.push 7) [] ∧
  decode [0b01000110#8, 0b00000001#8] = .ok (.pop 1) [] ∧
  decode [0b10100000#8, 0b00000101#8, 0b00000110#8] = .ok (.add 5 6) [] ∧
  decode [0b10100001#8, 0b00000010#8, 0b00000001#8] = .ok (.sub 2 1) [] ∧
  decode [0b10100010#8, 0b00000000#8, 0b00000001#8] = .ok (.mul 0 1) [] ∧
  decode [0b10100011#8, 0b00000100#8, 0b00000011#8] = .ok (.div 4 3) []

/-! ### The cycle -/

/-- Where the bytes at the program counter decode to an instruction, a step of a running machine is that instruction's
meaning and nothing more: the meaning itself moves past the instruction (R140, R145). -/
def Obligations.StepExecutesDecodedInstruction : Prop :=
  ∀ (s : State) (i : Instr) (rest : List Byte), s.status = .running → decode (fetchBytes s) = .ok i rest →
    step s = exec i s

/-- The bytes of one instruction lie at ascending addresses from the program counter up: where memory holds an instruction's
opcode byte at `pc` and its operand bytes at `pc+1` and `pc+2`, the step is that instruction's meaning (R77). -/
def Obligations.InstructionBytesLieAtAscendingAddresses : Prop :=
  ∀ (s : State) (i : Instr), s.status = .running →
    (∀ (k : Nat) (h : k < (encode i).length), s.mem.read? (s.pc.toNat + k) = some (encode i)[k]) →
    step s = exec i s

/-- The two names the host uses agree: placing a table word that decodes to an instruction makes the very next step run
exactly that instruction, from every state (log entry 4 says what placing does). -/
def Obligations.StepRunsPlacedTableWord : Prop :=
  ∀ (s : State) (nbits w : Nat) (i : Instr), decodeTableWord nbits w = some i →
    step (s.withFetchWord nbits w) = exec i (s.withFetchWord nbits w)

/-- An opcode fetch at 0x100 or above raises AddressFault, with that `fpc` and no opcode (R141; the spec's decision D6; that
values above 0x100, which no run reaches, fault alike is log entry 7). -/
def Obligations.OpcodeFetchBeyondMemoryFaults : Prop :=
  ∀ s : State, s.status = .running → 0x100 ≤ s.pc.toNat → step s = .next (faultedState s .addressFault none)

/-- An illegal opcode raises UnrecognizedOpcode before any operand byte is fetched and before any other check, wherever it
lies, and nothing but the status and the record changes: `pc` keeps its address (R142). -/
def Obligations.IllegalOpcodeFaultsBeforeOperandFetch : Prop :=
  ∀ (s : State) (op : Byte), s.status = .running → s.mem.read? s.pc.toNat = some op → op ∉ definedOpcodes →
    step s = .next (faultedState s .unrecognizedOpcode (some op))

/-- A defined opcode with an operand byte at 0x100 or above raises AddressFault with the opcode, and that is so exactly for
an instruction that starts at 0xFF with an operand or at 0xFE with two (R143; the spec's decision D6). -/
def Obligations.OperandFetchBeyondMemoryFaults : Prop :=
  ∀ (s : State) (op : Byte), s.status = .running → s.mem.read? s.pc.toNat = some op → op ∈ definedOpcodes →
    ((0x100 ≤ s.pc.toNat + op.toNat / 64 ↔
        (s.pc = 0xFF#9 ∧ 1 ≤ op.toNat / 64) ∨ (s.pc = 0xFE#9 ∧ op.toNat / 64 = 2)) ∧
      (0x100 ≤ s.pc.toNat + op.toNat / 64 → step s = .next (faultedState s .addressFault (some op))))

/-- A register operand of 8 or more makes any instruction that has it raise RegisterFault, with no other effect (R106, R144;
the spec's decision D7). -/
def Obligations.RegisterOperandOutOfRangeFaults : Prop :=
  ∀ (i : Instr) (s : State), i.wellFormed = false →
    exec i s = .next (faultedState s .registerFault (some i.opcodeByte))

/-- The step of a running machine takes exactly the fault that R235's ordered list names, read off the bytes in memory and
not through the decoder, and ends without a fault where the list names none (R140, R235; the spec's decision D16). -/
def Obligations.FaultsFollowThePriorityList : Prop :=
  ∀ s : State, s.status = .running →
    (∀ k op, expectedFault s = some (k, op) → step s = .next (faultedState s k op)) ∧
    (expectedFault s = none → ∃ t, step s = .next t ∧ t.status ≠ .faulted)

/-- Fault entry writes exactly the status and the record: whenever a step ends FAULTED, every other part of the state is as
before, and the record names a kind, the `pc` and an opcode that R220's table allows (R230; the spec's decision D4). -/
def Obligations.FaultEntryWritesOnlyStatusAndRecord : Prop :=
  ∀ s t : State, step s = .next t → t.status = .faulted →
    ∃ r : FaultRecord, t = { s with status := .faulted, fault := some r } ∧ r.fpc = s.pc ∧
      r.opcode = s.mem.read? s.pc.toNat ∧ r.legal

/-- A step moves `pc` to the address past the instruction it ran, and leaves it where the step halts or faults (R37; the
spec's decision D4 for the faulting case). -/
def Obligations.PcOnlyAdvancesSequentially : Prop :=
  ∀ s t : State, step s = .next t →
    (t.status = .running → ∃ op, s.mem.read? s.pc.toNat = some op ∧ t.pc.toNat = s.pc.toNat + 1 + op.toNat / 64 ∧
      t.pc.toNat ≤ 0x100) ∧
    (t.status ≠ .running → t.pc = s.pc)

/-- FAULTED is terminal: it has no transition, the run returns the state as it is, so that the record is never overwritten;
reset leaves it, to RUNNING with no record (R233). -/
def Obligations.FaultsAreTerminal : Prop :=
  ∀ m : Session, m.core.status = .faulted →
    (∀ t, step m.core ≠ .next t) ∧ m.run = m ∧ runCore m.core = m.core ∧
    m.reset.core.status = .running ∧ m.reset.core.fault = none

/-- The status: RUNNING after reset, HALTED entered only by HALT, FAULTED only by a fault, both terminal; no instruction
reads it (R40). -/
def Obligations.StatusChangesOnlyByHaltOrFault : Prop :=
  (∀ gpr, (State.resetWith gpr).status = .running) ∧
  (∀ s t : State, step s = .next t →
    (t.status = .halted ↔ s.mem.read? s.pc.toNat = some 0x01#8) ∧ (t.status = .faulted ↔ (expectedFault s).isSome = true)) ∧
  (∀ s : State, s.status ≠ .running → ∀ t, step s ≠ .next t) ∧
  (∀ (i : Instr) (s t u : State) (st : Status), exec i s = .next t → exec i { s with status := st } = .next u →
    u.regs = t.regs ∧ u.pc = t.pc ∧ u.mem = t.mem ∧ u.out = t.out ∧ u.fault = t.fault)

/-! ### The instructions -/

/-- HALT: bytes `01`; the status becomes HALTED and nothing else changes, `pc` included; it has no exception, and executes
normally at 0xFF too (R150). After it no cycle happens (R147): that a step of a HALTED state answers the stop machineHalted is
the model's own way to say so, log entry 3. -/
def Obligations.HaltStopsTheMachine : Prop :=
  encode .halt = [0x01#8] ∧
  (∀ s : State, exec .halt s = .next { s with status := .halted }) ∧
  (∀ s : State, s.status = .running → s.mem.read? s.pc.toNat = some 0x01#8 → step s = .next { s with status := .halted }) ∧
  (∀ s : State, s.status = .halted → step s = .fault .machineHalted)

/-- LDI: bytes `82 a b`; x[a] becomes b, pc advances by 3, nothing else changes; AddressFault at 0xFE and 0xFF,
RegisterFault for a >= 8, no other (R161). -/
def Obligations.LdiWritesTheImmediate : Prop :=
  ∀ (a b : Byte) (s : State), encode (.ldi a b) = [0x82#8, a, b] ∧
    (∀ ha : a.toNat < 8, exec (.ldi a b) s = .next { s with regs := s.regs.set a.toNat b, pc := s.pc + 3#9 }) ∧
    (8 ≤ a.toNat → exec (.ldi a b) s = .next (faultedState s .registerFault (some 0x82#8))) ∧
    (s.status = .running → s.mem.read? s.pc.toNat = some 0x82#8 → s.pc = 0xFE#9 ∨ s.pc = 0xFF#9 →
      step s = .next (faultedState s .addressFault (some 0x82#8)))

/-- PRINT: bytes `47 a`; x[a] is appended to the output, pc advances by 2, nothing else changes; AddressFault at 0xFF,
RegisterFault for a >= 8, no other (R165; that the port carries the byte is the spec's decision D11). -/
def Obligations.PrintEmitsTheRegister : Prop :=
  ∀ (a : Byte) (s : State), encode (.print a) = [0x47#8, a] ∧
    (∀ ha : a.toNat < 8, exec (.print a) s = .next { s with out := s.out ++ [s.regs[a.toNat]], pc := s.pc + 2#9 }) ∧
    (8 ≤ a.toNat → exec (.print a) s = .next (faultedState s .registerFault (some 0x47#8))) ∧
    (s.status = .running → s.mem.read? s.pc.toNat = some 0x47#8 → s.pc = 0xFF#9 →
      step s = .next (faultedState s .addressFault (some 0x47#8)))

/-- PUSH: bytes `45 a`; SP is decremented, the register as it is after that is stored at the new SP and at no other address,
pc advances by 2; PUSH R7 stores the decremented SP; StackOverflow at SP = 0x00, RegisterFault for a >= 8, AddressFault at
0xFF (R170; the bound is the spec's decision D5, the order D22). -/
def Obligations.PushStoresBelowTheStackPointer : Prop :=
  ∀ (a : Byte) (s : State), encode (.push a) = [0x45#8, a] ∧
    (∀ ha : a.toNat < 8, s.regs[7] ≠ 0x00#8 → ∃ t, exec (.push a) s = .next t ∧
      t.regs = s.regs.set 7 (s.regs[7] - 1) ∧ t.pc = s.pc + 2#9 ∧ t.status = s.status ∧ t.fault = s.fault ∧
      t.out = s.out ∧
      ∀ c : Nat, t.mem.read? c =
        if c = (s.regs[7] - 1).toNat then some ((s.regs.set 7 (s.regs[7] - 1))[a.toNat]) else s.mem.read? c) ∧
    (a.toNat < 8 → s.regs[7] = 0x00#8 → exec (.push a) s = .next (faultedState s .stackOverflow (some 0x45#8))) ∧
    (8 ≤ a.toNat → exec (.push a) s = .next (faultedState s .registerFault (some 0x45#8))) ∧
    (s.status = .running → s.mem.read? s.pc.toNat = some 0x45#8 → s.pc = 0xFF#9 →
      step s = .next (faultedState s .addressFault (some 0x45#8)))

/-- POP: bytes `46 a`; x[a] becomes the byte at SP, then SP as it is after that is incremented, pc advances by 2, memory is
unchanged; POP R7 leaves the popped byte plus one; StackUnderflow at SP = 0xFF, RegisterFault for a >= 8, AddressFault at
0xFF (R175; the bound is the spec's decision D5, the order D22). -/
def Obligations.PopLoadsFromTheStackPointer : Prop :=
  ∀ (a : Byte) (s : State), encode (.pop a) = [0x46#8, a] ∧
    (∀ ha : a.toNat < 8, s.regs[7] ≠ 0xFF#8 → ∀ v : Byte, s.mem.read? s.regs[7].toNat = some v →
      exec (.pop a) s = .next { s with
        regs := (s.regs.set a.toNat v).set 7 ((s.regs.set a.toNat v)[7] + 1), pc := s.pc + 2#9 }) ∧
    (a.toNat < 8 → s.regs[7] = 0xFF#8 → exec (.pop a) s = .next (faultedState s .stackUnderflow (some 0x46#8))) ∧
    (8 ≤ a.toNat → exec (.pop a) s = .next (faultedState s .registerFault (some 0x46#8))) ∧
    (s.status = .running → s.mem.read? s.pc.toNat = some 0x46#8 → s.pc = 0xFF#9 →
      step s = .next (faultedState s .addressFault (some 0x46#8)))

/-- ADD: bytes `A0 a b`; x[a] becomes (x[a] + x[b]) mod 256, pc advances by 3, nothing else changes; AddressFault at 0xFE and
0xFF, RegisterFault for a >= 8 or b >= 8, no arithmetic fault (R192). -/
def Obligations.AddWritesTheSum : Prop :=
  ∀ (a b : Byte) (s : State), encode (.add a b) = [0xA0#8, a, b] ∧
    (∀ (ha : a.toNat < 8) (hb : b.toNat < 8), exec (.add a b) s = .next { s with
        regs := s.regs.set a.toNat (BitVec.ofNat 8 ((s.regs[a.toNat].toNat + s.regs[b.toNat].toNat) % 256))
        pc := s.pc + 3#9 }) ∧
    (8 ≤ a.toNat ∨ 8 ≤ b.toNat → exec (.add a b) s = .next (faultedState s .registerFault (some 0xA0#8))) ∧
    (s.status = .running → s.mem.read? s.pc.toNat = some 0xA0#8 → s.pc = 0xFE#9 ∨ s.pc = 0xFF#9 →
      step s = .next (faultedState s .addressFault (some 0xA0#8)))

/-- SUB: bytes `A1 a b`; x[a] becomes (x[a] - x[b]) mod 256, pc advances by 3, nothing else changes; AddressFault at 0xFE and
0xFF, RegisterFault for a >= 8 or b >= 8, no arithmetic fault (R194). -/
def Obligations.SubWritesTheDifference : Prop :=
  ∀ (a b : Byte) (s : State), encode (.sub a b) = [0xA1#8, a, b] ∧
    (∀ (ha : a.toNat < 8) (hb : b.toNat < 8), exec (.sub a b) s = .next { s with
        regs := s.regs.set a.toNat (BitVec.ofNat 8 ((s.regs[a.toNat].toNat + 256 - s.regs[b.toNat].toNat) % 256))
        pc := s.pc + 3#9 }) ∧
    (8 ≤ a.toNat ∨ 8 ≤ b.toNat → exec (.sub a b) s = .next (faultedState s .registerFault (some 0xA1#8))) ∧
    (s.status = .running → s.mem.read? s.pc.toNat = some 0xA1#8 → s.pc = 0xFE#9 ∨ s.pc = 0xFF#9 →
      step s = .next (faultedState s .addressFault (some 0xA1#8)))

/-- MUL: bytes `A2 a b`; x[a] becomes (x[a] * x[b]) mod 256, pc advances by 3, nothing else changes; AddressFault at 0xFE and
0xFF, RegisterFault for a >= 8 or b >= 8, no arithmetic fault; the opcode goes the ALU path (R196). -/
def Obligations.MulWritesTheLowProduct : Prop :=
  (aluFlag 0xA2#8 = true ∧ aluDispatch 0xA2#8 = some .mul ∧ decodeOpcode 0xA2#8 = some .mul) ∧
  ∀ (a b : Byte) (s : State), encode (.mul a b) = [0xA2#8, a, b] ∧
    (∀ (ha : a.toNat < 8) (hb : b.toNat < 8), exec (.mul a b) s = .next { s with
        regs := s.regs.set a.toNat (BitVec.ofNat 8 ((s.regs[a.toNat].toNat * s.regs[b.toNat].toNat) % 256))
        pc := s.pc + 3#9 }) ∧
    (8 ≤ a.toNat ∨ 8 ≤ b.toNat → exec (.mul a b) s = .next (faultedState s .registerFault (some 0xA2#8))) ∧
    (s.status = .running → s.mem.read? s.pc.toNat = some 0xA2#8 → s.pc = 0xFE#9 ∨ s.pc = 0xFF#9 →
      step s = .next (faultedState s .addressFault (some 0xA2#8)))

/-- DIV: bytes `A3 a b`; for x[b] other than 0, x[a] becomes floor(x[a] / x[b]), pc advances by 3, nothing else changes;
AddressFault at 0xFE and 0xFF, RegisterFault for a >= 8 or b >= 8, before the divisor is looked at (R198; the integer quotient
is the spec's decision D3). -/
def Obligations.DivWritesTheQuotient : Prop :=
  ∀ (a b : Byte) (s : State), encode (.div a b) = [0xA3#8, a, b] ∧
    (∀ (ha : a.toNat < 8) (hb : b.toNat < 8), s.regs[b.toNat] ≠ 0x00#8 → exec (.div a b) s = .next { s with
        regs := s.regs.set a.toNat (BitVec.ofNat 8 (s.regs[a.toNat].toNat / s.regs[b.toNat].toNat))
        pc := s.pc + 3#9 }) ∧
    (8 ≤ a.toNat ∨ 8 ≤ b.toNat → exec (.div a b) s = .next (faultedState s .registerFault (some 0xA3#8))) ∧
    (s.status = .running → s.mem.read? s.pc.toNat = some 0xA3#8 → s.pc = 0xFE#9 ∨ s.pc = 0xFF#9 →
      step s = .next (faultedState s .addressFault (some 0xA3#8)))

/-- ArithmeticFault: DIV by zero raises it, with no register mutated, and no other instruction raises it; ADD, SUB and MUL
complete whatever the values (R222). -/
def Obligations.DivideByZeroIsTheOnlyArithmeticFault : Prop :=
  (∀ (a b : Byte) (s : State), a.toNat < 8 → ∀ hb : b.toNat < 8, s.regs[b.toNat] = 0x00#8 →
    exec (.div a b) s = .next (faultedState s .arithmeticFault (some 0xA3#8))) ∧
  (∀ (i : Instr) (s t : State) (r : FaultRecord), s.fault = none → exec i s = .next t → t.fault = some r →
    r.kind = .arithmeticFault → ∃ a b : Byte, i = .div a b) ∧
  (∀ (a b : Byte) (s : State), a.toNat < 8 → b.toNat < 8 → s.status = .running →
    ∀ i ∈ [Instr.add a b, .sub a b, .mul a b], ∃ t, exec i s = .next t ∧ t.status = .running)

/-- The arithmetic laws: for register operands in range the result is exact modulo 256 on unsigned integers; nothing but the
registers and pc changes, so that there is no overflow or carry indication, and there is no trap on overflow or underflow; DIV
never overflows, and division by zero is the only arithmetic fault (R191). That DIV's result is the integer quotient is the
spec's decision D3 (R198; log entry 12). -/
def Obligations.AluResultsAreExactModulo256 : Prop :=
  ∀ (a b : Byte) (s : State) (ha : a.toNat < 8) (hb : b.toNat < 8),
    let x : Int := s.regs[a.toNat].toNat
    let y : Int := s.regs[b.toNat].toNat
    (∃ t, exec (.add a b) s = .next t ∧ t = { s with regs := t.regs, pc := t.pc } ∧
      (t.regs[a.toNat].toNat : Int) = (x + y) % 256) ∧
    (∃ t, exec (.sub a b) s = .next t ∧ t = { s with regs := t.regs, pc := t.pc } ∧
      (t.regs[a.toNat].toNat : Int) = (x - y) % 256) ∧
    (∃ t, exec (.mul a b) s = .next t ∧ t = { s with regs := t.regs, pc := t.pc } ∧
      (t.regs[a.toNat].toNat : Int) = (x * y) % 256) ∧
    (y ≠ 0 → ∃ t, exec (.div a b) s = .next t ∧ t = { s with regs := t.regs, pc := t.pc } ∧
      (t.regs[a.toNat].toNat : Int) = x / y) ∧
    (y = 0 → ∃ t, exec (.div a b) s = .next t ∧ t.status = .faulted)

/-! ### Frames -/

/-- The registers each instruction reads and writes are those of R33's table: no other register changes, and two states that
agree on the registers read (and on pc, memory, output and record) end alike: in the same status, with the same output and
memory, and with the same values in the registers written, whatever the other registers hold (R33). -/
def Obligations.RegistersReadAndWrittenAreTheTables : Prop :=
  (∀ (i : Instr) (s t : State) (r : Fin 8), exec i s = .next t → r.val ∉ i.writtenRegs → t.regs[r] = s.regs[r]) ∧
  (∀ (i : Instr) (s s' t t' : State), s.status = .running →
    s' = { s with regs := s'.regs } → (∀ r : Fin 8, r.val ∈ i.readRegs → s'.regs[r] = s.regs[r]) →
    exec i s = .next t → exec i s' = .next t' →
    t' = { t with regs := t'.regs } ∧
    (t.status ≠ .faulted → ∀ r : Fin 8, r.val ∈ i.writtenRegs → t'.regs[r] = t.regs[r]))

/-- What reaches memory. During execution only PUSH writes it, and only at the address one below SP; the loader writes the
image and no other cell. Only POP reads it beside instruction fetch: any other instruction does the same outside memory
whatever memory holds, and a whole step depends only on the bytes at pc to pc+2 and at SP (R72). -/
def Obligations.OnlyPushWritesAndOnlyPopReadsMemory : Prop :=
  (∀ (i : Instr) (s t : State), exec i s = .next t → (∀ a, i ≠ .push a) → ∀ c, t.mem.read? c = s.mem.read? c) ∧
  (∀ (a : Byte) (s t : State) (c : Nat), exec (.push a) s = .next t → c ≠ (s.regs[7] - 1).toNat →
    t.mem.read? c = s.mem.read? c) ∧
  (∀ (img : List Byte) (s : State), img.length ≤ 256 → ∀ c, (loadImage img s).mem.read? c =
    if c < img.length then img[c]? else s.mem.read? c) ∧
  (∀ (i : Instr) (s t t' : State) (m : Memory), (∀ a, i ≠ .pop a) → exec i s = .next t →
    exec i { s with mem := m } = .next t' → t' = { t with mem := t'.mem }) ∧
  (∀ (s t t' : State) (m : Memory), (∀ k, k < 3 → m.read? (s.pc.toNat + k) = s.mem.read? (s.pc.toNat + k)) →
    m.read? s.regs[7].toNat = s.mem.read? s.regs[7].toNat → step s = .next t → step { s with mem := m } = .next t' →
    t' = { t with mem := t'.mem })

/-- The frame of the control state. PRINT alone writes the output; an instruction that takes no fault leaves the record as it
is, and the status too unless it is HALT; an instruction that takes a fault changes the status and the record only (R37, R41,
R230; the spec's decisions D4, D11). -/
def Obligations.ControlStateFrame : Prop :=
  ∀ (i : Instr) (s t : State), s.status = .running → exec i s = .next t →
    ((∀ a, i ≠ .print a) → t.out = s.out) ∧
    (t.status ≠ .faulted → t.fault = s.fault ∧ (i ≠ .halt → t.status = .running)) ∧
    (t.status = .faulted → t = { s with status := .faulted, fault := t.fault })

/-- The output only grows, by one byte and only where a PRINT completes: the byte is the named register's (R41; the spec's
decision D11). -/
def Obligations.OutputGrowsOnlyByPrint : Prop :=
  ∀ s t : State, step s = .next t →
    t.out = s.out ∨
    (s.mem.read? s.pc.toNat = some 0x47#8 ∧ t.status = .running ∧
      ∃ (a : Byte) (h : a.toNat < 8), s.mem.read? (s.pc.toNat + 1) = some a ∧ t.out = s.out ++ [s.regs[a.toNat]])

/-- No instruction can read the status, the record or the output: two states that differ only there are taken to states that
differ only there (R41, R43). -/
def Obligations.ControlStateCannotBeRead : Prop :=
  ∀ (i : Instr) (s t u : State) (st : Status) (f : Option FaultRecord) (o : List Byte), exec i s = .next t →
    exec i { s with status := st, fault := f, out := o } = .next u →
    u.regs = t.regs ∧ u.pc = t.pc ∧ u.mem = t.mem ∧
    (∃ new : List Byte, t.out = s.out ++ new ∧ u.out = o ++ new)

/-! ### The stack and code in memory -/

/-- PUSH Ra then POP Ra, for a register other than R7 and a stack pointer other than 0, restores the register and the stack
pointer, and only the cell below SP and pc have changed (R180, derived there from R170 and R175; the
stack's bounds are the spec's decision D5). -/
def Obligations.PushThenPopIsNetZero : Prop :=
  ∀ (a : Byte) (s : State) (ha : a.toNat < 7), s.regs[7] ≠ 0x00#8 →
    ∃ t, execAll [.push a, .pop a] s = .next t ∧ t.regs = s.regs ∧ t.pc = s.pc + 4#9 ∧ t.status = s.status ∧
      t.fault = s.fault ∧ t.out = s.out ∧
      ∀ c : Nat, t.mem.read? c = if c = (s.regs[7] - 1).toNat then some (s.regs[a.toNat]) else s.mem.read? c

/-- The stack is last-in first-out: after any number of pushes of registers other than R7 that SP has room for, that many
pops, each into a register other than R7 and each printed, print the pushed values in reverse order, with no fault, and leave
SP where it was (R180, derived there from R170 and R175; the stack's bounds are the spec's decision D5). -/
def Obligations.StackIsLastInFirstOut : Prop :=
  ∀ (pushed popped : List Byte) (s : State), (∀ r ∈ pushed, r.toNat < 7) → (∀ r ∈ popped, r.toNat < 7) →
    popped.length = pushed.length → pushed.length ≤ s.regs[7].toNat → s.status = .running →
    ∃ t, execAll (pushed.map .push ++ popped.flatMap fun r => [.pop r, .print r]) s = .next t ∧
      t.status = .running ∧ t.fault = s.fault ∧ t.regs[7] = s.regs[7] ∧
      t.out.map some = s.out.map some ++ pushed.reverse.map fun r => s.regs[r.toNat]?

/-- LDI of a value to any register followed by PRINT of that register emits that value exactly once (the source's property
L1-3, 95_test_vectors.md section 1; from R161 and R165). -/
def Obligations.LdiThenPrintEmitsTheValue : Prop :=
  ∀ (a v : Byte) (s : State), a.toNat < 8 →
    ∃ t, execAll [.ldi a v, .print a] s = .next t ∧ t.out = s.out ++ [v] ∧ t.pc = s.pc + 5#9 ∧ t.mem = s.mem ∧
      t.status = s.status

/-- A PUSH is seen by the very next fetch: where the pushed byte lands on the next instruction's opcode, the next cycle runs
or rejects the pushed byte (R88, derived there; the stack's bounds are the spec's decision D5). Here: a pushed 0x01 halts the
machine, a pushed illegal byte faults. -/
def Obligations.PushedByteIsFetchedNext : Prop :=
  ∀ (a : Byte) (s : State) (ha : a.toNat < 7), s.status = .running → s.mem.read? s.pc.toNat = some 0x45#8 →
    s.mem.read? (s.pc.toNat + 1) = some a → s.regs[7] ≠ 0x00#8 → (s.regs[7] - 1).toNat = s.pc.toNat + 2 →
    ∃ t, step s = .next t ∧ t.status = .running ∧
      (s.regs[a.toNat] = 0x01#8 → step t = .next { t with status := .halted }) ∧
      (s.regs[a.toNat] ∉ definedOpcodes →
        step t = .next (faultedState t .unrecognizedOpcode (some s.regs[a.toNat])))

/-! ### Reset, load, run, the host's view -/

/-- The reset state, for every value of the open parameter `gpr_reset`: R0 to R6 hold it, SP is 0xF4, pc is 0, every cell is 0,
the status is RUNNING, no record, no output, whatever ran before (R50, R260; the spec's decisions D8, D21, D23). The model's own
reset is this one with zeros for `gpr_reset`, which is the model's choice (log entry 1). -/
def Obligations.ResetGivesTheSpecsValues : Prop :=
  (∀ (gpr : Fin 7 → Byte) (m : Session), let s := (m.resetWith gpr).core
    (∀ k : Fin 7, s.regs[k.val] = gpr k) ∧ s.regs[7] = 0xF4#8 ∧ s.pc = 0x000#9 ∧
    (∀ c : Nat, c < 0x100 → s.mem.read? c = some 0x00#8) ∧ s.status = .running ∧ s.fault = none ∧ s.out = []) ∧
  (∀ m : Session, m.reset = m.resetWith fun _ => 0x00#8) ∧ Session.constructed.core = State.reset

/-- The entry point is address 0x00: pc starts there, and the first cycle after reset, with or without a load in between,
fetches M[0x00] as its opcode; there is no vector to read (R261). -/
def Obligations.FirstCycleFetchesAddressZero : Prop :=
  ∀ (gpr : Fin 7 → Byte) (m m' : Session) (img : List Byte),
    m' = m.resetWith gpr ∨ (m.resetWith gpr).load img = .next m' →
    m'.core.pc = 0x000#9 ∧ (fetchBytes m'.core)[0]? = m'.core.mem.read? 0x00 ∧
    (m'.core.mem.read? 0x00 = some 0x01#8 → step m'.core = .next { m'.core with status := .halted })

/-- Loading copies the image to address 0 and up and leaves every other cell at 0, whichever bytes it holds, and changes
nothing else (R61, R263; the spec's decision D10). -/
def Obligations.LoadCopiesTheImage : Prop :=
  ∀ (gpr : Fin 7 → Byte) (m : Session) (img : List Byte), img.length ≤ 256 →
    ∃ m', (m.resetWith gpr).load img = .next m' ∧ m'.phase = .loaded ∧
      m'.core = { State.resetWith gpr with mem := m'.core.mem } ∧
      (∀ (k : Nat) (h : k < img.length), m'.core.mem.read? k = some img[k]) ∧
      (∀ k : Nat, img.length ≤ k → k < 256 → m'.core.mem.read? k = some 0x00#8)

/-- A load is refused for an image over 256 bytes, after a previous load, and after the first cycle; a reset makes the next
load possible (R264, R265; the spec's decision D10; the phase that says so is the model's, log entry 5). -/
def Obligations.OtherLoadsAreRefused : Prop :=
  (∀ (m : Session) (img : List Byte), 256 < img.length → m.phase = .fresh → m.load img = .refused .imageTooLong) ∧
  (∀ (m m' : Session) (img img' : List Byte), m.load img = .next m' → m'.load img' = .refused .loadTwice) ∧
  (∀ (m : Session) (img : List Byte), m.core.status = .running → m.run.load img = .refused .loadAfterFirstCycle) ∧
  (∀ (m : Session) (img : List Byte), img.length ≤ 256 → ∃ m', m.reset.load img = .next m')

/-- A run performs cycles while RUNNING and returns in a terminal state: the bound of 129 cycles the model's run carries never
cuts it short, and a run of a terminal machine performs no cycle (R62, R153; the spec's decision D24). -/
def Obligations.RunReturnsOnlyInTerminalStates : Prop :=
  ∀ s : State, (runCore s).status ≠ .running ∧ (∀ n, cycles (129 + n) s = runCore s) ∧
    (s.status ≠ .running → runCore s = s)

/-- Every run ends: from every running state, at most 129 cycles reach HALTED or FAULTED, and as long as the machine runs on,
k cycles have moved pc up by at least 2 * k, to at most 0x100 (R153, R277, derived there). -/
def Obligations.EveryRunEndsWithin129Cycles : Prop :=
  ∀ s : State, s.status = .running →
    (∃ k t, 1 ≤ k ∧ k ≤ 129 ∧ Host.Core.run Sys2Proof.core k s = .next t ∧ t.status ≠ .running) ∧
    (∀ k t, 1 ≤ k → Host.Core.run Sys2Proof.core k s = .next t → t.status = .running →
      s.pc.toNat + 2 * k ≤ t.pc.toNat ∧ t.pc.toNat ≤ 0x100)

/-- Every step keeps the invariant: memory canonical, pc at most 0x100, a record exactly in FAULTED, and the record precise
(R36, R38, R230; the canonical form is the model's, log entry 13). -/
def Obligations.EveryStepKeepsTheInvariant : Prop :=
  ∀ s t : State, s.Inv → step s = .next t → t.Inv

/-- The invariant holds after reset, for every value of `gpr_reset`, and after any load then (R50, R263). -/
def Obligations.ResetAndLoadMeetTheInvariant : Prop :=
  ∀ (gpr : Fin 7 → Byte) (m : Session), (m.resetWith gpr).core.Inv ∧
    ∀ (img : List Byte) (m' : Session), (m.resetWith gpr).load img = .next m' → m'.core.Inv

/-- Memories in canonical form that read alike at every address are equal (the model's own form of memory, log entry 13; R70,
R71 give the address space). -/
def Obligations.CanonicalMemoriesThatReadAlikeAreEqual : Prop :=
  ∀ m m' : Memory, m.wf = true → m'.wf = true → (∀ c, c < 256 → m.read? c = m'.read? c) → m = m'

/-- A line that is not blank or comment-only and is no 8-character binary literal prevents the run from ever starting,
wherever it stands in the text (R227, R266; which characters are blank is the model's choice, log entry 11). -/
def Obligations.MalformedTextNeverRuns : Prop :=
  ∀ (lines : List (List Char)) (line : List Char), line ∈ lines → lineContent line ≠ [] →
    binaryLiteral (lineContent line) = none → ∃ l ∈ lines, launch lines = .malformedProgram l

/-- The image text reads back: the text with one 8-character binary literal a line, most significant bit first, each followed
by a comment, parses to the bytes it was made from, in order (R118). -/
def Obligations.ImageTextReadsBack : Prop :=
  ∀ (vs : List Byte) (comment : List Char),
    parseImage (vs.map fun v =>
      (List.range 8).map (fun k => if v.getLsbD (7 - k) then '1' else '0') ++ '#' :: comment) = .image vs

/-- The rendered output determines the bytes: two outputs with the same text are the same sequence (R63; the line end is the
model's choice, log entry 10). -/
def Obligations.RenderedOutputDeterminesTheBytes : Prop :=
  ∀ o o' : List Byte, renderOut o = renderOut o' → o = o'

/-- The exit status is zero exactly when the run ended HALTED, is non-zero when it ended FAULTED or the host refused the
program, and every launch has one (R66, R266; which non-zero values is left free, log entry 8). -/
def Obligations.ExitStatusIsZeroExactlyOnHalt : Prop :=
  ∀ lines : List (List Char), ∃ e, launchExit (launch lines) = some e ∧
    (e = 0 ↔ ∃ m, launch lines = .ran m ∧ m.core.status = .halted)

/-- The assembly notation reads back: for every well-formed instruction, the line written for it parses to it; and every
operation is named by its mnemonic and by the source's longer name, and by no other operation's (R116; the notation is the
spec's decision D14). The written form itself, one space after the comma and the immediate in decimal, and what the parser
takes beside it are the model's choice, log entry 14. -/
def Obligations.AssemblyTextReadsBack : Prop :=
  (∀ i : Instr, i.wellFormed = true → parseAssembly (assemblyText i) = some i) ∧
  (∀ m : Opcode, opcodeOfText (mnemonicText m) = some m ∧ opcodeOfText (aliasText m) = some m)
end

