-- ==== Sys2Proof/Laws/Decode.lean ====
section
/-! SUPPORT. Small facts about opcodes and the encoder. -/

namespace Sys2Proof

/-- The two dispatch paths together accept each operation's opcode byte and give that operation. -/
theorem decodeOpcode_byte (m : Opcode) : decodeOpcode m.byte = some m := by
  cases m <;> decide

/-- A byte that selects an operation is that operation's opcode byte. -/
theorem byte_of_decodeOpcode {op : Byte} {m : Opcode} (h : decodeOpcode op = some m) : op = m.byte := by
  unfold decodeOpcode aluDispatch tableDispatch at h
  repeat' split at h
  all_goals simp_all [Opcode.byte]
  all_goals (subst h; rfl)

/-- The length of each instruction (R102, R115). -/
@[simp] theorem lengthOf_byte (m : Opcode) :
    lengthOf m.byte = match m with
      | .halt => 1
      | .print => 2
      | .push => 2
      | .pop => 2
      | .ldi => 3
      | .add => 3
      | .sub => 3
      | .mul => 3
      | .div => 3 := by
  cases m <;> decide

theorem encode_length (i : Instr) : (encode i).length = lengthOf i.opcodeByte := by
  cases i <;> simp [encode, Instr.operandBytes, Instr.opcodeByte, Instr.operation]

/-- Bits 7-6 as a number: the byte's value divided by 64 (R101). -/
theorem operandCount_eq (op : Byte) : operandCount op = op.toNat / 64 := by
  have : op.toNat < 256 := op.isLt
  simp [operandCount, BitVec.extractLsb'_toNat, Nat.shiftRight_eq_div_pow]
  omega

/-- The only way a selected operation is rejected: an operand byte is missing. -/
theorem decodeOperands_error {op : Byte} {m : Opcode} {rest : List Byte} {e : DecodeError}
    (h : decodeOperands op m rest = .error e) : e = .missingOperand op := by
  rcases rest with _ | ⟨a, _ | ⟨b, rest⟩⟩ <;> cases m <;> simp [decodeOperands, decodeOne, decodeTwo] at h <;> exact h.symm

/-- The three ways a sequence of bytes is rejected. -/
theorem decode_error_cases {bs : List Byte} {e : DecodeError} (h : decode bs = .error e) :
    (bs = [] ∧ e = .noOpcode) ∨
    (∃ op rest, bs = op :: rest ∧ decodeOpcode op = none ∧ e = .unrecognized op) ∨
    (∃ op rest m, bs = op :: rest ∧ decodeOpcode op = some m ∧ e = .missingOperand op) := by
  cases bs with
  | nil => exact .inl ⟨rfl, by simpa [decode] using h.symm⟩
  | cons op rest =>
    simp only [decode] at h
    split at h
    · exact .inr (.inl ⟨op, rest, rfl, ‹_›, by simpa using h.symm⟩)
    · exact .inr (.inr ⟨op, rest, _, rfl, ‹_›, decodeOperands_error h⟩)

end Sys2Proof
end

