-- ==== Sys2Proof/Laws/State.lean ====
section
/-! SUPPORT. One lemma per field per update of State, so that no later proof unfolds a record update. -/

namespace Sys2Proof.Machine

open Sys2Proof

/-! ### writeReg -/

@[simp] theorem State.writeReg_regs (s : State) (r : RegIndex) (v : Byte) : (s.writeReg r v).regs = s.regs.set r v := rfl
@[simp] theorem State.writeReg_pc (s : State) (r : RegIndex) (v : Byte) : (s.writeReg r v).pc = s.pc := rfl
@[simp] theorem State.writeReg_mem (s : State) (r : RegIndex) (v : Byte) : (s.writeReg r v).mem = s.mem := rfl
@[simp] theorem State.writeReg_status (s : State) (r : RegIndex) (v : Byte) : (s.writeReg r v).status = s.status := rfl
@[simp] theorem State.writeReg_fault (s : State) (r : RegIndex) (v : Byte) : (s.writeReg r v).fault = s.fault := rfl
@[simp] theorem State.writeReg_out (s : State) (r : RegIndex) (v : Byte) : (s.writeReg r v).out = s.out := rfl

/-! ### setSp -/

@[simp] theorem State.setSp_regs (s : State) (v : Byte) : (s.setSp v).regs = s.regs.set 7 v := rfl
@[simp] theorem State.setSp_pc (s : State) (v : Byte) : (s.setSp v).pc = s.pc := rfl
@[simp] theorem State.setSp_mem (s : State) (v : Byte) : (s.setSp v).mem = s.mem := rfl
@[simp] theorem State.setSp_status (s : State) (v : Byte) : (s.setSp v).status = s.status := rfl
@[simp] theorem State.setSp_fault (s : State) (v : Byte) : (s.setSp v).fault = s.fault := rfl
@[simp] theorem State.setSp_out (s : State) (v : Byte) : (s.setSp v).out = s.out := rfl

/-! ### setPc -/

@[simp] theorem State.setPc_regs (s : State) (t : PcWord) : (s.setPc t).regs = s.regs := rfl
@[simp] theorem State.setPc_pc (s : State) (t : PcWord) : (s.setPc t).pc = t := rfl
@[simp] theorem State.setPc_mem (s : State) (t : PcWord) : (s.setPc t).mem = s.mem := rfl
@[simp] theorem State.setPc_status (s : State) (t : PcWord) : (s.setPc t).status = s.status := rfl
@[simp] theorem State.setPc_fault (s : State) (t : PcWord) : (s.setPc t).fault = s.fault := rfl
@[simp] theorem State.setPc_out (s : State) (t : PcWord) : (s.setPc t).out = s.out := rfl

/-! ### advance -/

@[simp] theorem State.advance_regs (s : State) (op : Byte) : (s.advance op).regs = s.regs := rfl
@[simp] theorem State.advance_pc (s : State) (op : Byte) : (s.advance op).pc = s.pc + BitVec.ofNat 9 (lengthOf op) := rfl
@[simp] theorem State.advance_mem (s : State) (op : Byte) : (s.advance op).mem = s.mem := rfl
@[simp] theorem State.advance_status (s : State) (op : Byte) : (s.advance op).status = s.status := rfl
@[simp] theorem State.advance_fault (s : State) (op : Byte) : (s.advance op).fault = s.fault := rfl
@[simp] theorem State.advance_out (s : State) (op : Byte) : (s.advance op).out = s.out := rfl

/-! ### store -/

@[simp] theorem State.store_regs (s : State) (a v : Byte) : (s.store a v).regs = s.regs := rfl
@[simp] theorem State.store_pc (s : State) (a v : Byte) : (s.store a v).pc = s.pc := rfl
@[simp] theorem State.store_mem (s : State) (a v : Byte) : (s.store a v).mem = s.mem.write a v := rfl
@[simp] theorem State.store_status (s : State) (a v : Byte) : (s.store a v).status = s.status := rfl
@[simp] theorem State.store_fault (s : State) (a v : Byte) : (s.store a v).fault = s.fault := rfl
@[simp] theorem State.store_out (s : State) (a v : Byte) : (s.store a v).out = s.out := rfl

/-! ### emit -/

@[simp] theorem State.emit_regs (s : State) (v : Byte) : (s.emit v).regs = s.regs := rfl
@[simp] theorem State.emit_pc (s : State) (v : Byte) : (s.emit v).pc = s.pc := rfl
@[simp] theorem State.emit_mem (s : State) (v : Byte) : (s.emit v).mem = s.mem := rfl
@[simp] theorem State.emit_status (s : State) (v : Byte) : (s.emit v).status = s.status := rfl
@[simp] theorem State.emit_fault (s : State) (v : Byte) : (s.emit v).fault = s.fault := rfl
@[simp] theorem State.emit_out (s : State) (v : Byte) : (s.emit v).out = s.out ++ [v] := rfl

/-! ### halt -/

@[simp] theorem State.halt_regs (s : State) : (s.halt).regs = s.regs := rfl
@[simp] theorem State.halt_pc (s : State) : (s.halt).pc = s.pc := rfl
@[simp] theorem State.halt_mem (s : State) : (s.halt).mem = s.mem := rfl
@[simp] theorem State.halt_status (s : State) : (s.halt).status = .halted := rfl
@[simp] theorem State.halt_fault (s : State) : (s.halt).fault = s.fault := rfl
@[simp] theorem State.halt_out (s : State) : (s.halt).out = s.out := rfl

/-! ### raise -/

@[simp] theorem State.raise_regs (s : State) (k : FaultKind) (op : Option Byte) : (s.raise k op).regs = s.regs := rfl
@[simp] theorem State.raise_pc (s : State) (k : FaultKind) (op : Option Byte) : (s.raise k op).pc = s.pc := rfl
@[simp] theorem State.raise_mem (s : State) (k : FaultKind) (op : Option Byte) : (s.raise k op).mem = s.mem := rfl
@[simp] theorem State.raise_status (s : State) (k : FaultKind) (op : Option Byte) : (s.raise k op).status = .faulted := rfl
@[simp] theorem State.raise_fault (s : State) (k : FaultKind) (op : Option Byte) : (s.raise k op).fault = some ⟨k, s.pc, op⟩ := rfl
@[simp] theorem State.raise_out (s : State) (k : FaultKind) (op : Option Byte) : (s.raise k op).out = s.out := rfl

/-! ### loadImage and placeBytes -/

@[simp] theorem loadImage_regs (img : List Byte) (s : State) : (loadImage img s).regs = s.regs := rfl
@[simp] theorem loadImage_pc (img : List Byte) (s : State) : (loadImage img s).pc = s.pc := rfl
@[simp] theorem loadImage_mem (img : List Byte) (s : State) : (loadImage img s).mem = s.mem.writeBytes Config.loadBase img := rfl
@[simp] theorem loadImage_status (img : List Byte) (s : State) : (loadImage img s).status = s.status := rfl
@[simp] theorem loadImage_fault (img : List Byte) (s : State) : (loadImage img s).fault = s.fault := rfl
@[simp] theorem loadImage_out (img : List Byte) (s : State) : (loadImage img s).out = s.out := rfl

@[simp] theorem State.placeBytes_regs (s : State) (bs : List Byte) : (s.placeBytes bs).regs = s.regs := rfl
@[simp] theorem State.placeBytes_pc (s : State) (bs : List Byte) : (s.placeBytes bs).pc = BitVec.ofNat 9 (placeAt s) := rfl
@[simp] theorem State.placeBytes_mem (s : State) (bs : List Byte) : (s.placeBytes bs).mem = s.mem.writeBytes (placeAt s) bs := rfl
@[simp] theorem State.placeBytes_status (s : State) (bs : List Byte) : (s.placeBytes bs).status = .running := rfl
@[simp] theorem State.placeBytes_fault (s : State) (bs : List Byte) : (s.placeBytes bs).fault = none := rfl
@[simp] theorem State.placeBytes_out (s : State) (bs : List Byte) : (s.placeBytes bs).out = s.out := rfl

/-! ### reading a register after an update -/

theorem State.readReg_eq (s : State) (r : RegIndex) : s.readReg r = s.regs[r] := rfl

theorem State.sp_eq (s : State) : s.sp = s.regs[7] := rfl

@[simp] theorem State.readReg_writeReg_same (s : State) (r : RegIndex) (v : Byte) :
    (s.writeReg r v).readReg r = v := by
  simp [State.readReg, State.writeReg]

theorem State.readReg_writeReg_other (s : State) (r q : RegIndex) (v : Byte) (h : q ≠ r) :
    (s.writeReg r v).readReg q = s.readReg q := by
  have h' : (r : Nat) ≠ (q : Nat) := fun e => h (Fin.ext e.symm)
  simp [State.readReg, State.writeReg, h']

@[simp] theorem State.sp_setSp (s : State) (v : Byte) : (s.setSp v).sp = v :=
  State.readReg_writeReg_same s _ v

end Sys2Proof.Machine
end

