-- ==== Sys2Proof/Laws/Exec.lean ====
section
/-! SUPPORT. What each shared operation of the meanings can do, said once: the operand checks, completing, and what a
completed instruction's shared effect leaves alone. -/

namespace Sys2Proof.Machine

open Sys2Proof

theorem regOperand_of_lt {a : Byte} (h : a.toNat < 8) : regOperand a = some ⟨a.toNat, h⟩ := by
  simp [regOperand, h]

theorem regOperand_of_ge {a : Byte} (h : 8 ≤ a.toNat) : regOperand a = none := by
  simp [regOperand, Nat.not_lt.mpr h]

/-- A legal register operand passes the check. -/
theorem withReg_of_lt {op a : Byte} {s : State} {f : RegIndex → Host.Outcome State Fault Refusal} (h : a.toNat < 8) :
    withReg op a s f = f ⟨a.toNat, h⟩ := by
  simp [withReg, regOperand_of_lt h]

/-- An illegal one takes RegisterFault (R144). -/
theorem withReg_of_ge {op a : Byte} {s : State} {f : RegIndex → Host.Outcome State Fault Refusal} (h : 8 ≤ a.toNat) :
    withReg op a s f = .next (s.raise .registerFault (some op)) := by
  simp [withReg, regOperand_of_ge h, takeFault]

theorem withRegs_of_lt {op a b : Byte} {s : State} {f : RegIndex → RegIndex → Host.Outcome State Fault Refusal}
    (ha : a.toNat < 8) (hb : b.toNat < 8) : withRegs op a b s f = f ⟨a.toNat, ha⟩ ⟨b.toNat, hb⟩ := by
  simp [withRegs, withReg_of_lt ha, withReg_of_lt hb]

theorem withRegs_of_ge {op a b : Byte} {s : State} {f : RegIndex → RegIndex → Host.Outcome State Fault Refusal}
    (h : 8 ≤ a.toNat ∨ 8 ≤ b.toNat) : withRegs op a b s f = .next (s.raise .registerFault (some op)) := by
  by_cases ha : a.toNat < 8
  · have hb : 8 ≤ b.toNat := by omega
    simp [withRegs, withReg_of_lt ha, withReg_of_ge hb]
  · simp [withRegs, withReg_of_ge (Nat.not_lt.mp ha)]

/-- Everything the check of one register operand can do. -/
theorem withReg_cases (op a : Byte) (s : State) (f : RegIndex → Host.Outcome State Fault Refusal) :
    (∃ h : a.toNat < 8, withReg op a s f = f ⟨a.toNat, h⟩) ∨
    (8 ≤ a.toNat ∧ withReg op a s f = .next (s.raise .registerFault (some op))) := by
  by_cases h : a.toNat < 8
  · exact .inl ⟨h, withReg_of_lt h⟩
  · exact .inr ⟨by omega, withReg_of_ge (by omega)⟩

/-- Everything the check of two register operands can do. -/
theorem withRegs_cases (op a b : Byte) (s : State) (f : RegIndex → RegIndex → Host.Outcome State Fault Refusal) :
    (∃ (ha : a.toNat < 8) (hb : b.toNat < 8), withRegs op a b s f = f ⟨a.toNat, ha⟩ ⟨b.toNat, hb⟩) ∨
    ((8 ≤ a.toNat ∨ 8 ≤ b.toNat) ∧ withRegs op a b s f = .next (s.raise .registerFault (some op))) := by
  by_cases h : a.toNat < 8 ∧ b.toNat < 8
  · exact .inl ⟨h.1, h.2, withRegs_of_lt h.1 h.2⟩
  · exact .inr ⟨by omega, withRegs_of_ge (by omega)⟩

/-- `complete` answers a next state: the given one, advanced. -/
theorem complete_eq (op : Byte) (s : State) : complete op s = .next (s.advance op) := rfl

/-- `takeFault` answers a next state: fault entry. -/
theorem takeFault_eq (k : FaultKind) (op : Option Byte) (s : State) : takeFault k op s = .next (s.raise k op) := rfl

/-- An ALU operation writes its result to its first register and advances. -/
theorem aluOperation_eq (op : Byte) (f : Byte → Byte → Byte) (ra rb : RegIndex) (s : State) :
    aluOperation op f ra rb s = .next ((s.writeReg ra (f (s.readReg ra) (s.readReg rb))).advance op) := rfl

/-! ### the effects of PUSH and POP, field by field -/

@[simp] theorem pushEffect_regs (ra : RegIndex) (s : State) : (pushEffect ra s).regs = s.regs.set 7 (s.sp - 1) := rfl
@[simp] theorem pushEffect_mem (ra : RegIndex) (s : State) :
    (pushEffect ra s).mem = s.mem.write (s.sp - 1) ((s.setSp (s.sp - 1)).readReg ra) := by
  simp [pushEffect]
@[simp] theorem pushEffect_pc (ra : RegIndex) (s : State) : (pushEffect ra s).pc = s.pc := rfl
@[simp] theorem pushEffect_status (ra : RegIndex) (s : State) : (pushEffect ra s).status = s.status := rfl
@[simp] theorem pushEffect_fault (ra : RegIndex) (s : State) : (pushEffect ra s).fault = s.fault := rfl
@[simp] theorem pushEffect_out (ra : RegIndex) (s : State) : (pushEffect ra s).out = s.out := rfl

@[simp] theorem popEffect_mem (ra : RegIndex) (s : State) : (popEffect ra s).mem = s.mem := rfl
@[simp] theorem popEffect_pc (ra : RegIndex) (s : State) : (popEffect ra s).pc = s.pc := rfl
@[simp] theorem popEffect_status (ra : RegIndex) (s : State) : (popEffect ra s).status = s.status := rfl
@[simp] theorem popEffect_fault (ra : RegIndex) (s : State) : (popEffect ra s).fault = s.fault := rfl
@[simp] theorem popEffect_out (ra : RegIndex) (s : State) : (popEffect ra s).out = s.out := rfl
@[simp] theorem popEffect_regs (ra : RegIndex) (s : State) :
    (popEffect ra s).regs =
      (s.regs.set ra (s.mem.read s.sp)).set 7 ((s.writeReg ra (s.mem.read s.sp)).sp + 1) := rfl

/-! ### everything an instruction can do -/

/-- The handler's own fault condition holds (R198, R170, R175). -/
def ownFault (i : Instr) (s : State) : Option FaultKind :=
  match i with
  | .push _ => if s.sp = 0x00#8 then some .stackOverflow else none
  | .pop _ => if s.sp = 0xFF#8 then some .stackUnderflow else none
  | .div _ b => if s.regs[b.toNat]? = some 0x00#8 then some .arithmeticFault else none
  | _ => none

/-- The state before the advance of an instruction that completes. -/
def handlerEffect (i : Instr) (s : State) : State :=
  match i with
  | .halt => s.halt
  | .ldi a b => (regOperand a).elim s fun ra => s.writeReg ra b
  | .print a => (regOperand a).elim s fun ra => s.emit (s.readReg ra)
  | .push a => (regOperand a).elim s fun ra => pushEffect ra s
  | .pop a => (regOperand a).elim s fun ra => popEffect ra s
  | .add a b => (regOperand a).elim s fun ra => (regOperand b).elim s fun rb =>
      s.writeReg ra (addResult (s.readReg ra) (s.readReg rb))
  | .sub a b => (regOperand a).elim s fun ra => (regOperand b).elim s fun rb =>
      s.writeReg ra (subResult (s.readReg ra) (s.readReg rb))
  | .mul a b => (regOperand a).elim s fun ra => (regOperand b).elim s fun rb =>
      s.writeReg ra (mulResult (s.readReg ra) (s.readReg rb))
  | .div a b => (regOperand a).elim s fun ra => (regOperand b).elim s fun rb =>
      s.writeReg ra (divResult (s.readReg ra) (s.readReg rb))

/-- The state an instruction that completes leaves: HALT does not advance (R145). -/
def completedState (i : Instr) (s : State) : State :=
  match i with
  | .halt => s.halt
  | i => (handlerEffect i s).advance i.opcodeByte

/-- The three things an instruction can do: RegisterFault, its own fault, completing. -/
theorem exec_cases (i : Instr) (s : State) :
    (i.wellFormed = false ∧ exec i s = .next (s.raise .registerFault (some i.opcodeByte))) ∨
    (∃ k, i.wellFormed = true ∧ ownFault i s = some k ∧ exec i s = .next (s.raise k (some i.opcodeByte))) ∨
    (i.wellFormed = true ∧ ownFault i s = none ∧ exec i s = .next (completedState i s)) := by
  cases i with
  | halt => exact .inr (.inr ⟨rfl, rfl, rfl⟩)
  | ldi a b =>
    by_cases h : a.toNat < 8
    · exact .inr (.inr ⟨by simp [Instr.wellFormed, Instr.regOperands, h], rfl, by
        simp [exec, execLdi, withReg_of_lt h, complete, completedState, handlerEffect, regOperand_of_lt h, immOperand, Instr.opcodeByte,
          Instr.operation]⟩)
    · exact .inl ⟨by simp [Instr.wellFormed, Instr.regOperands, h], withReg_of_ge (by omega)⟩
  | print a =>
    by_cases h : a.toNat < 8
    · exact .inr (.inr ⟨by simp [Instr.wellFormed, Instr.regOperands, h], rfl, by
        simp [exec, execPrint, withReg_of_lt h, complete, completedState, handlerEffect, regOperand_of_lt h, Instr.opcodeByte,
          Instr.operation]⟩)
    · exact .inl ⟨by simp [Instr.wellFormed, Instr.regOperands, h], withReg_of_ge (by omega)⟩
  | push a =>
    by_cases h : a.toNat < 8
    · have hw : (Instr.push a).wellFormed = true := by simp [Instr.wellFormed, Instr.regOperands, h]
      by_cases h0 : s.sp = 0x00#8
      · exact .inr (.inl ⟨.stackOverflow, hw, by simp [ownFault, h0], by
          simp [exec, execPush, withReg_of_lt h, h0, takeFault, Instr.opcodeByte, Instr.operation]⟩)
      · exact .inr (.inr ⟨hw, by simp [ownFault, h0], by
          simp [exec, execPush, withReg_of_lt h, h0, complete, completedState, handlerEffect, regOperand_of_lt h,
            Instr.opcodeByte, Instr.operation]⟩)
    · exact .inl ⟨by simp [Instr.wellFormed, Instr.regOperands]; omega, withReg_of_ge (by omega)⟩
  | pop a =>
    by_cases h : a.toNat < 8
    · have hw : (Instr.pop a).wellFormed = true := by simp [Instr.wellFormed, Instr.regOperands, h]
      by_cases h0 : s.sp = 0xFF#8
      · exact .inr (.inl ⟨.stackUnderflow, hw, by simp [ownFault, h0], by
          simp [exec, execPop, withReg_of_lt h, h0, takeFault, Instr.opcodeByte, Instr.operation]⟩)
      · exact .inr (.inr ⟨hw, by simp [ownFault, h0], by
          simp [exec, execPop, withReg_of_lt h, h0, complete, completedState, handlerEffect, regOperand_of_lt h,
            Instr.opcodeByte, Instr.operation]⟩)
    · exact .inl ⟨by simp [Instr.wellFormed, Instr.regOperands]; omega, withReg_of_ge (by omega)⟩
  | add a b =>
    by_cases h : a.toNat < 8 ∧ b.toNat < 8
    · exact .inr (.inr ⟨by simp [Instr.wellFormed, Instr.regOperands, h], rfl, by
        simp [exec, execAdd, withRegs_of_lt h.1 h.2, aluOperation, complete, completedState, handlerEffect,
          regOperand_of_lt h.1, regOperand_of_lt h.2, Instr.opcodeByte, Instr.operation]⟩)
    · exact .inl ⟨by simp [Instr.wellFormed, Instr.regOperands]; omega, withRegs_of_ge (by omega)⟩
  | sub a b =>
    by_cases h : a.toNat < 8 ∧ b.toNat < 8
    · exact .inr (.inr ⟨by simp [Instr.wellFormed, Instr.regOperands, h], rfl, by
        simp [exec, execSub, withRegs_of_lt h.1 h.2, aluOperation, complete, completedState, handlerEffect,
          regOperand_of_lt h.1, regOperand_of_lt h.2, Instr.opcodeByte, Instr.operation]⟩)
    · exact .inl ⟨by simp [Instr.wellFormed, Instr.regOperands]; omega, withRegs_of_ge (by omega)⟩
  | mul a b =>
    by_cases h : a.toNat < 8 ∧ b.toNat < 8
    · exact .inr (.inr ⟨by simp [Instr.wellFormed, Instr.regOperands, h], rfl, by
        simp [exec, execMul, withRegs_of_lt h.1 h.2, aluOperation, complete, completedState, handlerEffect,
          regOperand_of_lt h.1, regOperand_of_lt h.2, Instr.opcodeByte, Instr.operation]⟩)
    · exact .inl ⟨by simp [Instr.wellFormed, Instr.regOperands]; omega, withRegs_of_ge (by omega)⟩
  | div a b =>
    by_cases h : a.toNat < 8 ∧ b.toNat < 8
    · have hw : (Instr.div a b).wellFormed = true := by simp [Instr.wellFormed, Instr.regOperands, h]
      by_cases h0 : s.readReg ⟨b.toNat, h.2⟩ = 0x00#8
      · have h0' : s.regs[b.toNat]? = some 0x00#8 := by rw [Vector.getElem?_eq_getElem h.2]; exact congrArg some h0
        exact .inr (.inl ⟨.arithmeticFault, hw, by simp [ownFault, h0'], by
          simp [exec, execDiv, withRegs_of_lt h.1 h.2, h0, takeFault, Instr.opcodeByte, Instr.operation]⟩)
      · have h0' : ¬ s.regs[b.toNat]? = some 0x00#8 := by
          rw [Vector.getElem?_eq_getElem h.2]; exact fun e => h0 (Option.some.inj e)
        exact .inr (.inr ⟨hw, by simp only [ownFault, h0', if_false], by
          simp [exec, execDiv, withRegs_of_lt h.1 h.2, h0, aluOperation, complete, completedState, handlerEffect,
            regOperand_of_lt h.1, regOperand_of_lt h.2, Instr.opcodeByte, Instr.operation]⟩)
    · exact .inl ⟨by simp [Instr.wellFormed, Instr.regOperands]; omega, withRegs_of_ge (by omega)⟩

end Sys2Proof.Machine
end

