-- ==== Sys2Proof/Laws/Memory.lean ====
section
/-! SUPPORT. What the memory operations do: reading after a write, and that every operation keeps the canonical form. -/

namespace Sys2Proof.Machine

open Sys2Proof

/-! ### Lists of cells -/

theorem lookupCell_eraseCell_same (a : Nat) (cs : List Host.Cell) :
    lookupCell a (eraseCell a cs) = Config.unlistedByte := by
  induction cs with
  | nil => rfl
  | cons c cs ih => by_cases h : c.1 = a <;> simp [eraseCell, lookupCell, h, ih]

theorem lookupCell_eraseCell_other {a b : Nat} (h : b ≠ a) (cs : List Host.Cell) :
    lookupCell b (eraseCell a cs) = lookupCell b cs := by
  induction cs with
  | nil => rfl
  | cons c cs ih =>
    by_cases hc : c.1 = a
    · have hb : c.1 ≠ b := fun e => h (e.symm.trans hc)
      simp [eraseCell, lookupCell, hc, ih, show ¬ a = b from fun e => h e.symm]
    · simp [eraseCell, lookupCell, hc, ih]

theorem lookupCell_insertCell_other {a b : Nat} (h : b ≠ a) (v : Byte) (cs : List Host.Cell) :
    lookupCell b (insertCell a v cs) = lookupCell b cs := by
  have h' : ¬ a = b := fun e => h e.symm
  induction cs with
  | nil => simp [insertCell, lookupCell, h']
  | cons c cs ih =>
    by_cases hc : a < c.1
    · simp [insertCell, hc, lookupCell, h']
    · simp [insertCell, hc, lookupCell, ih]

theorem lookupCell_insertCell_same (a : Nat) (v : Byte) (cs : List Host.Cell) :
    lookupCell a (insertCell a v (eraseCell a cs)) = v := by
  have key : ∀ ds : List Host.Cell, (∀ c ∈ ds, c.1 ≠ a) → lookupCell a (insertCell a v ds) = v := by
    intro ds
    induction ds with
    | nil => simp [insertCell, lookupCell]
    | cons c ds ih =>
      intro hne
      have hc : c.1 ≠ a := hne c (by simp)
      have ih' := ih fun d hd => hne d (by simp [hd])
      by_cases hl : a < c.1
      · simp [insertCell, hl, lookupCell]
      · simp [insertCell, hl, lookupCell, hc, ih']
  apply key
  induction cs with
  | nil => simp [eraseCell]
  | cons c cs ih =>
    by_cases hc : c.1 = a
    · simpa [eraseCell, hc] using ih
    · simpa [eraseCell, hc] using ih

/-- A lower bound on the addresses may be lowered. -/
theorem cellsWf_mono {lo hi : Nat} (h : lo ≤ hi) {cs : List Host.Cell} (hw : cellsWf hi cs = true) :
    cellsWf lo cs = true := by
  cases cs with
  | nil => rfl
  | cons c cs =>
    simp only [cellsWf, Bool.and_eq_true, decide_eq_true_eq] at hw ⊢
    exact ⟨⟨⟨le_trans h hw.1.1.1, hw.1.1.2⟩, hw.1.2⟩, hw.2⟩

theorem cellsWf_eraseCell (a : Nat) {lo : Nat} {cs : List Host.Cell} (hw : cellsWf lo cs = true) :
    cellsWf lo (eraseCell a cs) = true := by
  induction cs generalizing lo with
  | nil => rfl
  | cons c cs ih =>
    simp only [cellsWf, Bool.and_eq_true, decide_eq_true_eq] at hw
    by_cases hc : c.1 = a
    · simpa [eraseCell, hc] using cellsWf_mono (by omega) (ih hw.2)
    · simp only [eraseCell, hc, if_false, cellsWf, Bool.and_eq_true, decide_eq_true_eq]
      exact ⟨hw.1, ih hw.2⟩

theorem cellsWf_insertCell {a : Nat} {v : Byte} (ha : a < 256) (hv : v ≠ Config.unlistedByte) {lo : Nat} (hlo : lo ≤ a)
    {cs : List Host.Cell} (hne : ∀ c ∈ cs, c.1 ≠ a) (hw : cellsWf lo cs = true) :
    cellsWf lo (insertCell a v cs) = true := by
  induction cs generalizing lo with
  | nil => simp [insertCell, cellsWf, hlo, Config.memSize, ha, hv]
  | cons c cs ih =>
    simp only [cellsWf, Bool.and_eq_true, decide_eq_true_eq] at hw
    have hca : c.1 ≠ a := hne c (by simp)
    by_cases hl : a < c.1
    · simp only [insertCell, hl, if_true, cellsWf, Bool.and_eq_true, decide_eq_true_eq]
      exact ⟨⟨⟨hlo, ha⟩, hv⟩, ⟨⟨by omega, hw.1.1.2⟩, hw.1.2⟩, hw.2⟩
    · simp only [insertCell, hl, if_false, cellsWf, Bool.and_eq_true, decide_eq_true_eq]
      exact ⟨hw.1, ih (by omega) (fun d hd => hne d (by simp [hd])) hw.2⟩

theorem eraseCell_ne (a : Nat) (cs : List Host.Cell) : ∀ c ∈ eraseCell a cs, c.1 ≠ a := by
  induction cs with
  | nil => simp [eraseCell]
  | cons c cs ih =>
    by_cases hc : c.1 = a
    · simpa [eraseCell, hc] using ih
    · simpa [eraseCell, hc] using ih

/-! ### The memory -/

@[simp] theorem Memory.read_write_same (m : Memory) (a v : Byte) : (m.write a v).read a = v := by
  by_cases hv : v = Config.unlistedByte
  · simp [Memory.read, Memory.write, hv, lookupCell_eraseCell_same]
  · simp [Memory.read, Memory.write, hv, lookupCell_insertCell_same]

/-- A write changes no other address. -/
theorem Memory.lookup_write_other (m : Memory) {a : Byte} (v : Byte) {b : Nat} (h : b ≠ a.toNat) :
    lookupCell b (m.write a v).cells = lookupCell b m.cells := by
  by_cases hv : v = Config.unlistedByte
  · simp [Memory.write, hv, lookupCell_eraseCell_other h]
  · simp [Memory.write, hv, lookupCell_insertCell_other h, lookupCell_eraseCell_other h]

theorem Memory.read_write_other (m : Memory) {a b : Byte} (v : Byte) (h : b ≠ a) :
    (m.write a v).read b = m.read b :=
  Memory.lookup_write_other m v fun e => h (BitVec.eq_of_toNat_eq e)

/-- Reading an 8-bit address never fails (R73). -/
@[simp] theorem Memory.read?_toNat (m : Memory) (a : Byte) : m.read? a.toNat = some (m.read a) := by
  have : a.toNat < 256 := a.isLt
  simp [Memory.read?, Memory.read, Config.memSize, this]

theorem Memory.read?_of_ge (m : Memory) {a : Nat} (h : 256 ≤ a) : m.read? a = none := by
  rw [Memory.read?, Config.memSize, if_neg (by omega)]

theorem Memory.read?_of_lt (m : Memory) {a : Nat} (h : a < 256) : m.read? a = some (lookupCell a m.cells) := by
  simp [Memory.read?, Config.memSize, h]

/-- What one write does to every read. -/
theorem Memory.read?_write (m : Memory) (a v : Byte) (b : Nat) :
    (m.write a v).read? b = if b = a.toNat then some v else m.read? b := by
  by_cases h : b = a.toNat
  · subst h
    simp
  · simp [Memory.read?, Memory.lookup_write_other m v h, h]

/-- A write keeps the canonical form. -/
theorem Memory.write_wf {m : Memory} (h : m.wf = true) (a v : Byte) : (m.write a v).wf = true := by
  by_cases hv : v = Config.unlistedByte
  · simpa [Memory.wf, Memory.write, hv] using cellsWf_eraseCell a.toNat h
  · simpa [Memory.wf, Memory.write, hv] using
      cellsWf_insertCell a.isLt hv (Nat.zero_le _) (eraseCell_ne a.toNat m.cells) (cellsWf_eraseCell a.toNat h)

/-- Writing many bytes keeps the canonical form. -/
theorem Memory.writeBytes_wf {m : Memory} (h : m.wf = true) (a : Nat) (vs : List Byte) :
    (m.writeBytes a vs).wf = true := by
  induction vs generalizing m a with
  | nil => exact h
  | cons v vs ih => exact ih (Memory.write_wf h _ _) _

/-- The memory after reset is in canonical form. -/
theorem State.resetWith_mem_wf (gpr : Fin 7 → Byte) : (State.resetWith gpr).mem.wf = true := rfl

/-- Loading an image keeps the canonical form. -/
theorem loadImage_mem_wf (img : List Byte) {s : State} (h : s.mem.wf = true) : (loadImage img s).mem.wf = true :=
  Memory.writeBytes_wf h _ _

/-- Placing bytes for the next cycle keeps the canonical form. -/
theorem State.placeBytes_mem_wf {s : State} (h : s.mem.wf = true) (bs : List Byte) : (s.placeBytes bs).mem.wf = true :=
  Memory.writeBytes_wf h _ _

/-- Reading after writing many bytes that stay inside the memory. -/
theorem Memory.read?_writeBytes (m : Memory) (a : Nat) (vs : List Byte) (h : a + vs.length ≤ 256) (b : Nat) :
    (m.writeBytes a vs).read? b = if a ≤ b ∧ b < a + vs.length then vs[b - a]? else m.read? b := by
  induction vs generalizing m a with
  | nil => simp [Memory.writeBytes, show ¬ (a ≤ b ∧ b < a) by omega]
  | cons v vs ih =>
    simp only [List.length_cons] at h
    have ha : (BitVec.ofNat 8 a).toNat = a := by simp; omega
    rw [Memory.writeBytes, ih _ _ (by omega), Memory.read?_write, ha, List.length_cons]
    by_cases h1 : b = a
    · subst h1
      simp
    · by_cases h2 : a + 1 ≤ b ∧ b < a + 1 + vs.length
      · have hb : b - a = (b - (a + 1)) + 1 := by omega
        simp only [h2, and_self, if_true]
        rw [if_pos (by omega), hb, List.getElem?_cons_succ]
      · rw [if_neg h2, if_neg h1, if_neg (by omega)]

end Sys2Proof.Machine
end

