-- ==== Sys2Proof/Laws/PerInstr.lean ====
section
/-! SUPPORT. Facts stated per instruction. `OperandFields`: the encoding starts with the instruction's opcode byte, is as long
as bits 7-6 of that byte say, has the ALU flag exactly for the four ALU operations, never the PC-setting flag, and every
register operand is among its operand bytes (R101, R102, R112, R115). -/

namespace Sys2Proof.Laws.OperandFields

open Sys2Proof

/-- The ALU operations (R109). -/
def isAlu : Instr → Bool
  | .halt => false
  | .ldi _ _ => false
  | .print _ => false
  | .push _ => false
  | .pop _ => false
  | .add _ _ => true
  | .sub _ _ => true
  | .mul _ _ => true
  | .div _ _ => true

def Statement (i : Instr) : Prop :=
  i.operandBytes.length = operandCount i.opcodeByte ∧ aluFlag i.opcodeByte = isAlu i ∧
  pcSettingFlag i.opcodeByte = false ∧ ∀ a ∈ i.regOperands, a ∈ i.operandBytes

theorem halt : Statement .halt := ⟨by decide, by decide, by decide, by simp [Instr.regOperands]⟩

theorem ldi (a b : Byte) : Statement (.ldi a b) :=
  ⟨(by decide : 2 = operandCount 0x82#8), (by decide : aluFlag 0x82#8 = false), (by decide : pcSettingFlag 0x82#8 = false),
    by simp [Instr.regOperands, Instr.operandBytes]⟩

theorem print (a : Byte) : Statement (.print a) :=
  ⟨(by decide : 1 = operandCount 0x47#8), (by decide : aluFlag 0x47#8 = false), (by decide : pcSettingFlag 0x47#8 = false),
    by simp [Instr.regOperands, Instr.operandBytes]⟩

theorem push (a : Byte) : Statement (.push a) :=
  ⟨(by decide : 1 = operandCount 0x45#8), (by decide : aluFlag 0x45#8 = false), (by decide : pcSettingFlag 0x45#8 = false),
    by simp [Instr.regOperands, Instr.operandBytes]⟩

theorem pop (a : Byte) : Statement (.pop a) :=
  ⟨(by decide : 1 = operandCount 0x46#8), (by decide : aluFlag 0x46#8 = false), (by decide : pcSettingFlag 0x46#8 = false),
    by simp [Instr.regOperands, Instr.operandBytes]⟩

theorem add (a b : Byte) : Statement (.add a b) :=
  ⟨(by decide : 2 = operandCount 0xA0#8), (by decide : aluFlag 0xA0#8 = true), (by decide : pcSettingFlag 0xA0#8 = false),
    by simp [Instr.regOperands, Instr.operandBytes]⟩

theorem sub (a b : Byte) : Statement (.sub a b) :=
  ⟨(by decide : 2 = operandCount 0xA1#8), (by decide : aluFlag 0xA1#8 = true), (by decide : pcSettingFlag 0xA1#8 = false),
    by simp [Instr.regOperands, Instr.operandBytes]⟩

theorem mul (a b : Byte) : Statement (.mul a b) :=
  ⟨(by decide : 2 = operandCount 0xA2#8), (by decide : aluFlag 0xA2#8 = true), (by decide : pcSettingFlag 0xA2#8 = false),
    by simp [Instr.regOperands, Instr.operandBytes]⟩

theorem div (a b : Byte) : Statement (.div a b) :=
  ⟨(by decide : 2 = operandCount 0xA3#8), (by decide : aluFlag 0xA3#8 = true), (by decide : pcSettingFlag 0xA3#8 = false),
    by simp [Instr.regOperands, Instr.operandBytes]⟩

end Sys2Proof.Laws.OperandFields
end

