-- ==== Sys2Proof/Laws/Step.lean ====
section
/-! SUPPORT. What fetching, a cycle and a step can do, said once. -/

namespace Sys2Proof.Machine

open Sys2Proof

theorem fetchFrom_zero (m : Memory) (a : Nat) : fetchFrom m a 0 = [] := rfl

theorem fetchFrom_of_ge (m : Memory) {a : Nat} (h : 256 ≤ a) (n : Nat) : fetchFrom m a n = [] := by
  cases n with
  | zero => rfl
  | succ n => simp [fetchFrom, Memory.read?_of_ge m h]

theorem fetchFrom_of_lt (m : Memory) {a : Nat} (h : a < 256) (n : Nat) :
    fetchFrom m a (n + 1) = lookupCell a m.cells :: fetchFrom m (a + 1) n := by
  simp [fetchFrom, Memory.read?_of_lt m h]

/-- An instruction always answers a next state. -/
theorem exec_next (i : Instr) (s : State) : ∃ t, exec i s = .next t := by
  rcases exec_cases i s with h | ⟨k, h⟩ | h
  · exact ⟨_, h.2⟩
  · exact ⟨_, h.2.2⟩
  · exact ⟨_, h.2.2⟩

/-- A fault of fetch or decode answers a next state: fault entry. -/
theorem decodeFault_next (e : DecodeError) (s : State) : ∃ k op, decodeFault e s = .next (s.raise k op) := by
  cases e with
  | noOpcode => exact ⟨_, _, rfl⟩
  | unrecognized op => exact ⟨_, _, rfl⟩
  | missingOperand op => exact ⟨_, _, rfl⟩

/-- Everything a step can do when it answers a next state. -/
theorem step_cases {s t : State} (h : step s = .next t) :
    s.status = .running ∧
    ((∃ i rest, decode (fetchBytes s) = .ok i rest ∧ exec i s = .next t) ∨
     (∃ e, decode (fetchBytes s) = .error e ∧ decodeFault e s = .next t)) := by
  unfold step at h
  split at h
  · refine ⟨‹_›, ?_⟩
    unfold cycle at h
    split at h
    · exact .inl ⟨_, _, ‹_›, h⟩
    · exact .inr ⟨_, ‹_›, h⟩
  · cases h
  · cases h

/-- A running machine always takes a step to a next state. -/
theorem step_next_of_running {s : State} (h : s.status = .running) : ∃ t, step s = .next t := by
  unfold step cycle
  rw [h]
  simp only
  split
  · exact exec_next _ _
  · obtain ⟨k, op, e⟩ := decodeFault_next ‹_› s
    exact ⟨_, e⟩

end Sys2Proof.Machine
end

