-- ==== Sys2Proof/Tests/Slice0.lean ====
section
/-! SUPPORT. Tests. Expected results come from the spec: encodings from R103 and R107, and the vectors of 95_test_vectors.md
(named in each test's comment). The witnesses show, for each statement of Obligations.lean that has hypotheses, a concrete case
that meets them. -/

namespace Sys2Proof.Tests

open Sys2Proof Sys2Proof.Machine

/-! ### Helpers -/

/-- A running state with these registers, these bytes at `pc` and these cells elsewhere. -/
def start (regs : Vector Byte 8) (pc : PcWord) (bytes : List Byte) (at2 : Nat := 0) (bytes2 : List Byte := []) : State :=
  { State.reset with
    regs := regs
    pc := pc
    mem := ((⟨[]⟩ : Memory).writeBytes at2 bytes2).writeBytes pc.toNat bytes }

/-- The next state, where there is one. -/
def next? (o : Host.Outcome State Fault Refusal) : Option State :=
  match o with
  | .next t => some t
  | .fault _ => none
  | .refused _ => none

/-- One field of the next state. -/
def after {α : Type} (s : State) (f : State → α) : Option α := (next? (step s)).map f

/-! ### Well-formedness: an ill-formed term for each check -/

theorem test_wf_all_in_range : (Instr.add 7 7).wellFormed = true ∧ (Instr.ldi 7 255).wellFormed = true := by decide
theorem test_wf_refuses_ldi_a : (Instr.ldi 8 0).wellFormed = false := by decide
theorem test_wf_refuses_print_a : (Instr.print 255).wellFormed = false := by decide
theorem test_wf_refuses_push_a : (Instr.push 8).wellFormed = false := by decide
theorem test_wf_refuses_pop_a : (Instr.pop 9).wellFormed = false := by decide
theorem test_wf_refuses_add_a_and_b : (Instr.add 8 0).wellFormed = false ∧ (Instr.add 0 8).wellFormed = false := by decide
theorem test_wf_refuses_sub_a_and_b : (Instr.sub 8 0).wellFormed = false ∧ (Instr.sub 0 8).wellFormed = false := by decide
theorem test_wf_refuses_mul_a_and_b : (Instr.mul 8 0).wellFormed = false ∧ (Instr.mul 0 8).wellFormed = false := by decide
theorem test_wf_refuses_div_a_and_b : (Instr.div 8 0).wellFormed = false ∧ (Instr.div 0 8).wellFormed = false := by decide

/-! ### Decoding: words written out bit by bit from R103 and R107 -/

theorem test_decode_halt : decode [0b00000001#8, 0xFF#8] = .ok .halt [0xFF#8] := by decide
theorem test_decode_ldi : decode [0b10000010#8, 0b00000011#8, 0b11111111#8] = .ok (.ldi 3 255) [] := by decide
theorem test_decode_print : decode [0b01000111#8, 0b00000111#8] = .ok (.print 7) [] := by decide
theorem test_decode_push : decode [0b01000101#8, 0b00000010#8] = .ok (.push 2) [] := by decide
theorem test_decode_pop : decode [0b01000110#8, 0b00000110#8] = .ok (.pop 6) [] := by decide
theorem test_decode_add : decode [0b10100000#8, 0b00000001#8, 0b00000010#8] = .ok (.add 1 2) [] := by decide
theorem test_decode_sub : decode [0b10100001#8, 0b00000010#8, 0b00000001#8] = .ok (.sub 2 1) [] := by decide
theorem test_decode_mul : decode [0b10100010#8, 0b00000101#8, 0b00000100#8] = .ok (.mul 5 4) [] := by decide
theorem test_decode_div : decode [0b10100011#8, 0b00000000#8, 0b00000111#8] = .ok (.div 0 7) [] := by decide
/-- Vectors C3 to C10: the rejected opcodes. -/
theorem test_decode_rejects :
    [0x00#8, 0xFF#8, 0xA4#8, 0x20#8, 0x83#8, 0x11#8, 0xC2#8, 0x02#8].map (fun op => decode [op, 0#8, 0#8]) =
      [0x00#8, 0xFF#8, 0xA4#8, 0x20#8, 0x83#8, 0x11#8, 0xC2#8, 0x02#8].map (fun op => .error (.unrecognized op)) := by decide
theorem test_decode_missing_operand :
    decode [] = .error .noOpcode ∧ decode [0x47#8] = .error (.missingOperand 0x47#8) ∧
    decode [0xA3#8, 0x09#8] = .error (.missingOperand 0xA3#8) := by decide
/-- Bits 7-0 are the opcode, 15-8 operand a, 23-16 operand b. -/
theorem test_decode_table_word : decodeTableWord 24 0x090182 = some (.ldi 1 9) ∧ decodeTableWord 8 0x82 = some (.ldi 0 0) := by
  decide

/-! ### One step of each instruction -/

/-- Vector C1. -/
theorem test_halt_at_top : after (start #v[0, 0, 0, 0, 0, 0, 0, 0xF4] 0xFF [0x01]) (fun t => (t.status, t.pc)) =
    some (.halted, 0xFF#9) := by decide
/-- Program P7, first cycle: the PRINT after HALT has no effect. -/
theorem test_halt_keeps_pc : after (start #v[0, 0, 0, 0, 0, 0, 0, 0xF4] 0x00 [0x01, 0x47, 0x00])
    (fun t => (t.status, t.pc, t.out)) = some (.halted, 0x00#9, []) := by decide
/-- Vector L3. -/
theorem test_ldi_sp : after (start #v[0, 0, 0, 0, 0, 0, 0, 0xF4] 0x20 [0x82, 0x07, 0x10]) (fun t => (t.regs[7], t.pc)) =
    some (0x10#8, 0x23#9) := by decide
/-- Vector L6. -/
theorem test_ldi_at_top : after (start #v[0, 0, 0, 0, 0, 0, 0, 0xF4] 0xFD [0x82, 0x00, 0x2A]) (fun t => (t.regs[0], t.pc)) =
    some (0x2A#8, 0x100#9) := by decide
/-- Vector O1. -/
theorem test_print : after (start #v[72, 0, 0, 0, 0, 0, 0, 0xF4] 0x09 [0x47, 0x00]) (fun t => (t.out, t.pc)) =
    some ([72#8], 0x0B#9) := by decide
/-- Vector O3. -/
theorem test_print_bad_register : after (start #v[0, 0, 0, 0, 0, 0, 0, 0xF4] 0x09 [0x47, 0xC8]) (fun t => (t.fault, t.out)) =
    some (some ⟨.registerFault, 0x09#9, some 0x47#8⟩, []) := by decide
/-- Vector S2. -/
theorem test_push_sp : after (start #v[0, 0, 0, 0, 0, 0, 0, 0xF4] 0x06 [0x45, 0x07])
    (fun t => (t.regs[7], t.mem.read 0xF3, t.pc)) = some (0xF3#8, 0xF3#8, 0x08#9) := by decide
/-- Vector S4. -/
theorem test_push_overflow : after (start #v[0x33, 0, 0, 0, 0, 0, 0, 0x00] 0x06 [0x45, 0x00])
    (fun t => (t.status, t.fault, t.regs[7], t.mem.read 0xFF)) =
    some (.faulted, some ⟨.stackOverflow, 0x06#9, some 0x45#8⟩, 0x00#8, 0x00#8) := by decide
/-- Vector T1. -/
theorem test_pop : after (start #v[0, 0, 0, 0, 0, 0, 0, 0xF3] 0x0A [0x46, 0x01] 0xF3 [0x2A])
    (fun t => (t.regs[1], t.regs[7], t.mem.read 0xF3, t.pc)) = some (0x2A#8, 0xF4#8, 0x2A#8, 0x0C#9) := by decide
/-- Vector T6. -/
theorem test_pop_sp_wraps : after (start #v[0, 0, 0, 0, 0, 0, 0, 0xF3] 0x0A [0x46, 0x07] 0xF3 [0xFF])
    (fun t => (t.regs[7], t.status)) = some (0x00#8, .running) := by decide
/-- Vector A2. -/
theorem test_add_wraps : after (start #v[200, 100, 0, 0, 0, 0, 0, 0xF4] 0x10 [0xA0, 0x00, 0x01])
    (fun t => (t.regs[0], t.regs[1], t.pc)) = some (44#8, 100#8, 0x13#9) := by decide
/-- Vector A4. -/
theorem test_add_same_register : after (start #v[0, 0, 0x80, 0, 0, 0, 0, 0xF4] 0x10 [0xA0, 0x02, 0x02]) (fun t => t.regs[2]) =
    some 0x00#8 := by decide
/-- Vector A7. -/
theorem test_sub_order_and_wrap : after (start #v[4, 9, 0, 0, 0, 0, 0, 0xF4] 0x10 [0xA1, 0x00, 0x01])
    (fun t => (t.regs[0], t.regs[1])) = some (251#8, 9#8) := by decide
/-- Vector A9. -/
theorem test_sub_same_register : after (start #v[0, 0, 77, 0, 0, 0, 0, 0xF4] 0x10 [0xA1, 0x02, 0x02]) (fun t => t.regs[2]) =
    some 0#8 := by decide
/-- Vector A12. -/
theorem test_mul_low_byte : after (start #v[255, 255, 0, 0, 0, 0, 0, 0xF4] 0x10 [0xA2, 0x00, 0x01]) (fun t => t.regs[0]) =
    some 1#8 := by decide
/-- Vector A13. -/
theorem test_mul_wraps : after (start #v[20, 13, 0, 0, 0, 0, 0, 0xF4] 0x10 [0xA2, 0x00, 0x01]) (fun t => t.regs[0]) =
    some 4#8 := by decide
/-- Vector A17. -/
theorem test_div_floor : after (start #v[7, 2, 0, 0, 0, 0, 0, 0xF4] 0x10 [0xA3, 0x00, 0x01]) (fun t => (t.regs[0], t.pc)) =
    some (3#8, 0x13#9) := by decide
/-- Vector A21. -/
theorem test_div_by_zero : after (start #v[5, 0, 0, 0, 0, 0, 0, 0xF4] 0x10 [0xA3, 0x00, 0x01])
    (fun t => (t.status, t.fault, t.regs[0], t.pc)) =
    some (.faulted, some ⟨.arithmeticFault, 0x10#9, some 0xA3#8⟩, 5#8, 0x10#9) := by decide

/-! ### Faults of fetch and their priority -/

/-- Vector C2. -/
theorem test_fetch_beyond_memory : after (start #v[0, 0, 0, 0, 0, 0, 0, 0xF4] 0x100 []) (fun t => (t.fault, t.pc)) =
    some (some ⟨.addressFault, 0x100#9, none⟩, 0x100#9) := by decide
/-- Vector A27: the operand fetch comes before the register check. -/
theorem test_operand_beyond_memory : after (start #v[0, 0, 0, 0, 0, 0, 0, 0xF4] 0xFE [0xA3, 0x09]) (fun t => t.fault) =
    some (some ⟨.addressFault, 0xFE#9, some 0xA3#8⟩) := by decide
/-- Vector A26: the register check comes before the divisor. -/
theorem test_register_before_divisor : after (start #v[0, 0, 0, 0, 0, 0, 0, 0xF4] 0x10 [0xA3, 0x09, 0x00]) (fun t => t.fault) =
    some (some ⟨.registerFault, 0x10#9, some 0xA3#8⟩) := by decide
/-- Vector C11: decode comes before the operand fetch. -/
theorem test_decode_before_operands : after (start #v[0, 0, 0, 0, 0, 0, 0, 0xF4] 0xFF [0xFF]) (fun t => t.fault) =
    some (some ⟨.unrecognizedOpcode, 0xFF#9, some 0xFF#8⟩) := by decide
/-- Vector C12: no cycle in a terminal state. -/
theorem test_no_cycle_when_halted : next? (step { State.reset with status := .halted }) = none := by decide

/-! ### Reset, host view, image text -/

/-- R50 and R264: nothing loaded, the first cycle faults on the byte 0x00 at 0x00. -/
theorem test_empty_image : after State.reset (fun t => (t.status, t.fault)) =
    some (.faulted, some ⟨.unrecognizedOpcode, 0x000#9, some 0x00#8⟩) := by decide
/-- 41_data_movement.md, PRINT's example and vector O4: plain decimal, one value a line. -/
theorem test_render : renderOut [72#8, 0#8, 244#8] = ['7', '2', '\n', '0', '\n', '2', '4', '4', '\n'] := by decide
/-- Vector L1-2: the literal of LDI's opcode; a comment line is skipped. -/
theorem test_image_text : parseImage [['#', 'x'], ['1', '0', '0', '0', '0', '0', '1', '0', ' ', '#', 'L'], []] =
    .image [0x82#8] := by decide
/-- R227: seven digits are no literal. -/
theorem test_image_malformed : parseImage [['1', '0', '0', '0', '0', '0', '1']] =
    .malformedProgram ['1', '0', '0', '0', '0', '0', '1'] := by decide
/-- R116's example, with the source's names and with the canonical ones. -/
theorem test_assembly :
    parseAssembly ['L', 'O', 'A', 'D', '-', 'I', 'M', 'M', 'E', 'D', 'I', 'A', 'T', 'E', ' ', 'R', '0', ',', '8'] =
      some (.ldi 0 8) ∧
    parseAssembly ['L', 'D', 'I', ' ', 'R', '3', ',', ' ', '0', 'x', 'C', '8'] = some (.ldi 3 200) ∧
    parseAssembly ['M', 'U', 'L', ' ', 'R', '0', ',', 'R', '1'] = some (.mul 0 1) ∧
    parseAssembly ['H', 'A', 'L', 'T'] = some .halt ∧ parseAssembly ['P', 'U', 'S', 'H', ' ', 'R', '8'] = none := by decide
/-- The memory's canonical form: writing what an unlisted cell holds removes the cell. -/
theorem test_memory_canonical : ((⟨[]⟩ : Memory).write 5 1).write 5 0 = ⟨[]⟩ ∧
    ((⟨[]⟩ : Memory).write 9 1).write 5 2 = ⟨[(5, 2), (9, 1)]⟩ := by decide

/-! ### Witnesses for the statements' hypotheses -/

/-- Registers 10, 20, ..., SP at its reset value. -/
def regsW : Vector Byte 8 := #v[10, 20, 30, 40, 50, 60, 70, 0xF4]
/-- `regsW` with another SP. -/
def regsSp (sp : Byte) : Vector Byte 8 := #v[10, 20, 30, 40, 50, 60, 70, sp]

theorem witness_EncodeOfDecodeIsIdentity : decode [0xA0#8, 0xFF#8, 0x00#8, 0x55#8] = .ok (.add 0xFF 0x00) [0x55#8] := by
  decide
theorem witness_OpcodeSetIsExactlyTheNine :
    0x00#8 ∉ definedOpcodes ∧ 0xA4#8 ∉ definedOpcodes ∧ 0x01#8 ∈ definedOpcodes ∧ 0xA3#8 ∈ definedOpcodes := by decide
theorem witness_LengthComesFromOpcodeBits : ∃ s t : State, Instr.push 0 ≠ .halt ∧ s.status = .running ∧
    exec (.push 0) s = .next t ∧ t.status ≠ .faulted := ⟨start regsW 0xFE [0x45, 0x00], _, by decide, rfl, rfl, by decide⟩
theorem witness_StepExecutesDecodedInstruction : (start regsW 0x10 [0xA0, 0x00, 0x01]).status = .running ∧
    decode (fetchBytes (start regsW 0x10 [0xA0, 0x00, 0x01])) = .ok (.add 0 1) [] := by decide
theorem witness_InstructionBytesLieAtAscendingAddresses : (start regsW 0xFD [0xA0, 0x00, 0x01]).status = .running ∧
    ∀ (k : Nat) (h : k < (encode (.add 0 1)).length),
      (start regsW 0xFD [0xA0, 0x00, 0x01]).mem.read? (0xFD + k) = some (encode (.add 0 1))[k] := by decide
theorem witness_StepRunsPlacedTableWord : decodeTableWord 24 0x0100A0 = some (.add 0 1) ∧
    decodeTableWord 8 0x01 = some .halt := by decide
theorem witness_OpcodeFetchBeyondMemoryFaults : (start regsW 0x100 []).status = .running ∧
    0x100 ≤ (start regsW 0x100 []).pc.toNat := by decide
theorem witness_IllegalOpcodeFaultsBeforeOperandFetch : (start regsW 0xFF [0xC2]).status = .running ∧
    (start regsW 0xFF [0xC2]).mem.read? (start regsW 0xFF [0xC2]).pc.toNat = some 0xC2#8 ∧ 0xC2#8 ∉ definedOpcodes := by
  decide
/-- The two addresses where it faults, and the two next to them where it does not. -/
theorem witness_OperandFetchBeyondMemoryFaults :
    (∀ s ∈ [start regsW 0xFF [0x45], start regsW 0xFE [0xA0, 0x00]], s.status = .running ∧
      ∃ op ∈ definedOpcodes, s.mem.read? s.pc.toNat = some op ∧ 0x100 ≤ s.pc.toNat + op.toNat / 64) ∧
    (∀ s ∈ [start regsW 0xFE [0x45, 0x00], start regsW 0xFD [0xA0, 0x00, 0x01], start regsW 0xFF [0x01]],
      s.status = .running ∧
      ∃ op ∈ definedOpcodes, s.mem.read? s.pc.toNat = some op ∧ ¬ 0x100 ≤ s.pc.toNat + op.toNat / 64) := by decide
theorem witness_RegisterOperandOutOfRangeFaults : (Instr.sub 7 8).wellFormed = false := by decide
/-- A state for each line of the list, the last for none. -/
theorem witness_FaultsFollowThePriorityList :
    [start regsW 0x100 [], start regsW 0xFF [0xFF], start regsW 0xFE [0xA3, 0x09], start regsW 0x10 [0xA3, 0x09, 0x00],
      start regsW 0x10 [0xA3, 0x00, 0x08], start #v[1, 0, 0, 0, 0, 0, 0, 0] 0x10 [0xA3, 0x00, 0x01],
      start (regsSp 0x00) 0x10 [0x45, 0x00], start (regsSp 0xFF) 0x10 [0x46, 0x00],
      start (regsSp 0x01) 0x10 [0x45, 0x00]].map (fun s => (s.status, expectedFault s)) =
    [(.running, some (.addressFault, none)), (.running, some (.unrecognizedOpcode, some 0xFF#8)),
      (.running, some (.addressFault, some 0xA3#8)), (.running, some (.registerFault, some 0xA3#8)),
      (.running, some (.registerFault, some 0xA3#8)), (.running, some (.arithmeticFault, some 0xA3#8)),
      (.running, some (.stackOverflow, some 0x45#8)), (.running, some (.stackUnderflow, some 0x46#8)),
      (.running, none)] := by decide
theorem witness_FaultEntryWritesOnlyStatusAndRecord : ∃ s t : State, step s = .next t ∧ t.status = .faulted :=
  ⟨start regsW 0x30 [0x11], _, rfl, by decide⟩
theorem witness_PcOnlyAdvancesSequentially :
    (∃ s t : State, step s = .next t ∧ t.status = .running) ∧ (∃ s t : State, step s = .next t ∧ t.status ≠ .running) :=
  ⟨⟨start regsW 0xFD [0x82, 0x00, 0x01], _, rfl, by decide⟩, ⟨start regsW 0xFF [0x01], _, rfl, by decide⟩⟩
theorem witness_FaultsAreTerminal : ∃ m : Session, m.core.status = .faulted :=
  ⟨⟨{ State.reset with status := .faulted, fault := some ⟨.addressFault, 0x100#9, none⟩ }, .started⟩, rfl⟩
theorem witness_StatusChangesOnlyByHaltOrFault :
    (∃ s t : State, step s = .next t) ∧ (∃ s : State, s.status ≠ .running) ∧
    (∃ (s t u : State), exec (.print 0) s = .next t ∧ exec (.print 0) { s with status := .halted } = .next u) :=
  ⟨⟨start regsW 0xFF [0x01], _, rfl⟩, ⟨{ State.reset with status := .halted }, by decide⟩,
    ⟨start regsW 0x00 [], _, _, rfl, rfl⟩⟩
theorem witness_HaltStopsTheMachine : (start regsW 0xFF [0x01]).status = .running ∧
    (start regsW 0xFF [0x01]).mem.read? (start regsW 0xFF [0x01]).pc.toNat = some 0x01#8 ∧
    ({ State.reset with status := .halted } : State).status = .halted := by decide
/-- The clauses on the operand byte, at both ends of each range. -/
theorem witness_operand_ranges : (∀ a ∈ [0x00#8, 0x07#8], a.toNat < 8) ∧ (∀ a ∈ [0x08#8, 0xFF#8], 8 ≤ a.toNat) := by decide
/-- The AddressFault clauses of the three-byte instructions (LDI, ADD, SUB, MUL, DIV), at 0xFE and 0xFF. -/
theorem witness_three_byte_address_fault : ∀ op ∈ [0x82#8, 0xA0#8, 0xA1#8, 0xA2#8, 0xA3#8], ∀ pc ∈ [0xFE#9, 0xFF#9],
    (start regsW pc [op]).status = .running ∧ (start regsW pc [op]).mem.read? (start regsW pc [op]).pc.toNat = some op ∧
    ((start regsW pc [op]).pc = 0xFE#9 ∨ (start regsW pc [op]).pc = 0xFF#9) := by decide
/-- The AddressFault clauses of the two-byte instructions (PRINT, PUSH, POP), at 0xFF. -/
theorem witness_two_byte_address_fault : ∀ op ∈ [0x47#8, 0x45#8, 0x46#8],
    (start regsW 0xFF [op]).status = .running ∧ (start regsW 0xFF [op]).mem.read? (start regsW 0xFF [op]).pc.toNat = some op ∧
    (start regsW 0xFF [op]).pc = 0xFF#9 := by decide
/-- PUSH completes at SP = 0x01 and overflows at SP = 0x00. -/
theorem witness_PushStoresBelowTheStackPointer : (0x07#8).toNat < 8 ∧ (start (regsSp 0x01) 0x06 [0x45, 0x07]).regs[7] ≠ 0x00#8 ∧
    (start (regsSp 0x00) 0x06 [0x45, 0x07]).regs[7] = 0x00#8 := by decide
/-- POP completes at SP = 0xFE and underflows at SP = 0xFF. -/
theorem witness_PopLoadsFromTheStackPointer : (0x07#8).toNat < 8 ∧
    (start (regsSp 0xFE) 0x0A [0x46, 0x07] 0xFE [0x77]).regs[7] ≠ 0xFF#8 ∧
    (start (regsSp 0xFE) 0x0A [0x46, 0x07] 0xFE [0x77]).mem.read?
      (start (regsSp 0xFE) 0x0A [0x46, 0x07] 0xFE [0x77]).regs[7].toNat = some 0x77#8 ∧
    (start (regsSp 0xFF) 0x0A [0x46, 0x07]).regs[7] = 0xFF#8 := by decide
/-- ADD, SUB, MUL: both operands in range, in a running state; DIV with a divisor of 1 and of 0. -/
theorem witness_AluCompletes : (0x00#8).toNat < 8 ∧ (0x07#8).toNat < 8 ∧ (start (regsSp 0x01) 0 []).status = .running ∧
    (start (regsSp 0x01) 0 []).regs[(0x07#8).toNat] ≠ 0x00#8 ∧ (start (regsSp 0x00) 0 []).regs[(0x07#8).toNat] = 0x00#8 := by
  decide
theorem witness_DivideByZeroIsTheOnlyArithmeticFault : ∃ s t : State, ∃ r, s.fault = none ∧
    exec (.div 0 7) s = .next t ∧ t.fault = some r ∧ r.kind = .arithmeticFault :=
  ⟨start (regsSp 0x00) 0 [], _, _, rfl, rfl, rfl, rfl⟩
theorem witness_RegistersReadAndWrittenAreTheTables :
    (∃ s t : State, exec (.push 0) s = .next t ∧ (6 : Fin 8).val ∉ (Instr.push 0).writtenRegs) ∧
    (∃ s s' t t' : State, s.status = .running ∧ s' = { s with regs := s'.regs } ∧ s.regs[6] ≠ s'.regs[6] ∧
      (∀ r : Fin 8, r.val ∈ (Instr.div 0 1).readRegs → s'.regs[r] = s.regs[r]) ∧
      exec (.div 0 1) s = .next t ∧ exec (.div 0 1) s' = .next t' ∧ t.status ≠ .faulted) :=
  ⟨⟨start regsW 0 [], _, rfl, by decide⟩,
    ⟨start regsW 0 [], { start regsW 0 [] with regs := #v[10, 20, 0, 0, 0, 0, 0, 0] }, _, _, rfl, rfl, by decide, by decide,
      rfl, rfl, by decide⟩⟩
theorem witness_OnlyPushWritesAndOnlyPopReadsMemory :
    (∃ s t : State, exec (.pop 0) s = .next t ∧ ∀ a, Instr.pop 0 ≠ .push a) ∧
    (∃ s t : State, exec (.push 0) s = .next t ∧ (0xF2 : Nat) ≠ (s.regs[7] - 1).toNat) ∧
    (List.replicate 256 0xFF#8).length ≤ 256 ∧
    (∃ (s t t' : State) (m : Memory), m ≠ s.mem ∧ (∀ a, Instr.push 0 ≠ .pop a) ∧ exec (.push 0) s = .next t ∧
      exec (.push 0) { s with mem := m } = .next t') ∧
    (∃ (s t t' : State) (m : Memory), m ≠ s.mem ∧
      (∀ k, k < 3 → m.read? (s.pc.toNat + k) = s.mem.read? (s.pc.toNat + k)) ∧
      m.read? s.regs[7].toNat = s.mem.read? s.regs[7].toNat ∧ step s = .next t ∧ step { s with mem := m } = .next t') :=
  ⟨⟨start regsW 0 [], _, rfl, by simp⟩, ⟨start regsW 0 [], _, rfl, by decide⟩, by rw [List.length_replicate],
    ⟨start regsW 0 [], _, _, ⟨[(1, 1)]⟩, by decide, by simp, rfl, rfl⟩,
    ⟨start regsW 0x20 [0x46, 0x00], _, _, (start regsW 0x20 [0x46, 0x00]).mem.write 0x80 5, by decide, by decide, by decide,
      rfl, rfl⟩⟩
theorem witness_ControlStateFrame :
    (∃ s t : State, s.status = .running ∧ exec (.push 0) s = .next t ∧ (∀ a, Instr.push 0 ≠ .print a) ∧ t.status ≠ .faulted) ∧
    (∃ s t : State, s.status = .running ∧ exec (.push 8) s = .next t ∧ t.status = .faulted) :=
  ⟨⟨start regsW 0 [], _, rfl, rfl, by simp, by decide⟩, ⟨start regsW 0 [], _, rfl, rfl, by decide⟩⟩
theorem witness_OutputGrowsOnlyByPrint : ∃ s t : State, step s = .next t ∧ t.out ≠ s.out :=
  ⟨start regsW 0xFE [0x47, 0x07], _, rfl, by decide⟩
theorem witness_ControlStateCannotBeRead : ∃ s t u : State, exec (.print 0) s = .next t ∧
    exec (.print 0) { s with status := .faulted, fault := none, out := [1] } = .next u :=
  ⟨start regsW 0 [], _, _, rfl, rfl⟩
theorem witness_PushThenPopIsNetZero : (0x06#8).toNat < 7 ∧ (start (regsSp 0x01) 0 []).regs[7] ≠ 0x00#8 := by decide
/-- As many pushes as SP has room for. -/
theorem witness_StackIsLastInFirstOut : (∀ r ∈ [0x00#8, 0x06#8, 0x00#8], r.toNat < 7) ∧ (∀ r ∈ [0x01#8, 0x01#8, 0x02#8], r.toNat < 7) ∧
    [0x01#8, 0x01#8, 0x02#8].length = [0x00#8, 0x06#8, 0x00#8].length ∧
    [0x00#8, 0x06#8, 0x00#8].length ≤ (start (regsSp 0x03) 0 []).regs[7].toNat ∧ (start (regsSp 0x03) 0 []).status = .running := by
  decide
/-- Program P6's PUSH at 0x06 with SP = 9, pushing a HALT and pushing an illegal byte. -/
theorem witness_PushedByteIsFetchedNext : ∀ v ∈ [0x01#8, 0x00#8], let s := start #v[v, 0, 0, 0, 0, 0, 0, 9] 0x06 [0x45, 0x00]
    (0x00#8).toNat < 7 ∧ s.status = .running ∧ s.mem.read? s.pc.toNat = some 0x45#8 ∧
    s.mem.read? (s.pc.toNat + 1) = some 0x00#8 ∧ s.regs[7] ≠ 0x00#8 ∧ (s.regs[7] - 1).toNat = s.pc.toNat + 2 ∧
    (s.regs[0] = 0x01#8 ∨ s.regs[0] ∉ definedOpcodes) := by decide
theorem witness_FirstCycleFetchesAddressZero : ∃ m', (Session.constructed.resetWith fun _ => 0xFF#8).load [0x01#8] = .next m' :=
  ⟨_, rfl⟩
theorem witness_LoadCopiesTheImage : [0x00#8, 0xFF#8].length ≤ 256 ∧ (∀ k ∈ [0, 1], k < [0x00#8, 0xFF#8].length) ∧
    (∀ k ∈ [2, 255], [0x00#8, 0xFF#8].length ≤ k ∧ k < 256) := by decide
theorem witness_OtherLoadsAreRefused : 256 < (List.replicate 257 0x01#8).length ∧ Session.constructed.phase = .fresh ∧
    (∃ m', Session.constructed.load [0x01#8] = .next m') ∧ Session.constructed.core.status = .running ∧
    (List.replicate 256 0x01#8).length ≤ 256 :=
  ⟨by rw [List.length_replicate]; decide, rfl, ⟨_, rfl⟩, rfl, by rw [List.length_replicate]⟩
theorem witness_RunReturnsOnlyInTerminalStates : ({ State.reset with status := .halted } : State).status ≠ .running := by decide
theorem witness_EveryRunEndsWithin129Cycles : ∃ t : State, State.reset.status = .running ∧
    Host.Core.run Sys2Proof.core 1 (start regsW 0xFE [0x47, 0x00]) = .next t ∧ t.status = .running :=
  ⟨_, rfl, rfl, by decide⟩
theorem reset_inv : State.reset.Inv :=
  ⟨by decide, by decide, by decide, by intro r h; cases h⟩
theorem witness_EveryStepKeepsTheInvariant : ∃ s t : State, s.Inv ∧ step s = .next t := ⟨State.reset, _, reset_inv, rfl⟩
theorem witness_ResetAndLoadMeetTheInvariant :
    ∃ m', (Session.constructed.resetWith fun _ => 0x55#8).load [0x82#8, 0x00#8] = .next m' := ⟨_, rfl⟩
theorem witness_CanonicalMemoriesThatReadAlikeAreEqual : ∃ m m' : Memory, m.wf = true ∧ m'.wf = true ∧
    ∀ c, c < 256 → m.read? c = m'.read? c :=
  ⟨(⟨[]⟩ : Memory).write 255 1, ((⟨[]⟩ : Memory).write 0 1 |>.write 255 1).write 0 0, by decide, by decide,
    fun _ _ => rfl⟩
theorem witness_MalformedTextNeverRuns : ['2'] ∈ [['#'], ['2']] ∧ lineContent ['2'] ≠ [] ∧
    binaryLiteral (lineContent ['2']) = none := by decide
theorem witness_RenderedOutputDeterminesTheBytes : renderOut [72#8] = renderOut ([72#8] ++ []) := by decide
theorem witness_AssemblyTextReadsBack : (Instr.ldi 7 255).wellFormed = true := by decide
theorem witness_LdiThenPrintEmitsTheValue : (0x07#8).toNat < 8 := by decide

end Sys2Proof.Tests
end

/-! SUPPORT. Proofs about the parts of the state. The status (R40): what the decoder and the fetch accept, and that a step
ends in the fault the priority list names or in a completed instruction. The register file (R33): what an instruction writes
and what it reads. -/

namespace Sys2Proof

/-! ### The decoder: what it accepts and what it rejects -/

/-- `definedOpcodes` lists exactly the bytes that decode to an operation (R108). -/
theorem mem_definedOpcodes_iff {op : Byte} : op ∈ Machine.definedOpcodes ↔ ∃ m, decodeOpcode op = some m := by
  constructor
  · intro h
    have hbyte : ∃ m : Opcode, m.byte = op := by
      simp only [Machine.definedOpcodes, List.mem_cons, List.not_mem_nil, or_false] at h
      rcases h with rfl | rfl | rfl | rfl | rfl | rfl | rfl | rfl | rfl
      exacts [⟨.halt, rfl⟩, ⟨.ldi, rfl⟩, ⟨.print, rfl⟩, ⟨.push, rfl⟩, ⟨.pop, rfl⟩, ⟨.add, rfl⟩, ⟨.sub, rfl⟩, ⟨.mul, rfl⟩,
        ⟨.div, rfl⟩]
    obtain ⟨m, rfl⟩ := hbyte
    exact ⟨m, decodeOpcode_byte m⟩
  · rintro ⟨m, hm⟩
    rw [byte_of_decodeOpcode hm]
    cases m <;> decide

/-- The bytes that format F1 consumes. -/
theorem eq_of_decodeOne_ok {op : Byte} {f : Byte → Instr} {bs rest : List Byte} {i : Instr}
    (h : decodeOne op f bs = .ok i rest) : ∃ a, i = f a ∧ bs = a :: rest := by
  cases bs with
  | nil => cases h
  | cons a bs => cases h; exact ⟨a, rfl, rfl⟩

/-- The bytes that format F2 consumes. -/
theorem eq_of_decodeTwo_ok {op : Byte} {f : Byte → Byte → Instr} {bs rest : List Byte} {i : Instr}
    (h : decodeTwo op f bs = .ok i rest) : ∃ a b, i = f a b ∧ bs = a :: b :: rest := by
  rcases bs with _ | ⟨a, _ | ⟨b, bs⟩⟩
  · cases h
  · cases h
  · cases h; exact ⟨a, b, rfl, rfl⟩

/-- A selected operation gives an instruction of that operation, whose operand bytes are the bytes consumed. -/
theorem eq_of_decodeOperands_ok {op : Byte} {m : Opcode} {bs rest : List Byte} {i : Instr}
    (h : decodeOperands op m bs = .ok i rest) : i.operation = m ∧ bs = i.operandBytes ++ rest := by
  cases m with
  | halt => cases h; exact ⟨rfl, rfl⟩
  | print | push | pop =>
    obtain ⟨a, rfl, rfl⟩ := eq_of_decodeOne_ok h
    exact ⟨rfl, rfl⟩
  | ldi | add | sub | mul | div =>
    obtain ⟨a, b, rfl, rfl⟩ := eq_of_decodeTwo_ok h
    exact ⟨rfl, rfl⟩

/-- Where the decoder gives an instruction, it read that instruction's encoding (R107, R113). -/
theorem eq_encode_append_of_decode_ok {bs rest : List Byte} {i : Instr} (h : decode bs = .ok i rest) :
    bs = encode i ++ rest := by
  cases bs with
  | nil => cases h
  | cons op bs =>
    simp only [decode] at h
    split at h
    · cases h
    · next m hm =>
      obtain ⟨hop, rfl⟩ := eq_of_decodeOperands_ok h
      simp [encode, Instr.opcodeByte, hop, ← byte_of_decodeOpcode hm]

theorem length_lt_of_decodeOne_error {op : Byte} {f : Byte → Instr} {bs : List Byte} {e : DecodeError}
    (h : decodeOne op f bs = .error e) : bs.length < 1 := by
  cases bs with
  | nil => exact Nat.zero_lt_one
  | cons a bs => cases h

theorem length_lt_of_decodeTwo_error {op : Byte} {f : Byte → Byte → Instr} {bs : List Byte} {e : DecodeError}
    (h : decodeTwo op f bs = .error e) : bs.length < 2 := by
  rcases bs with _ | ⟨a, _ | ⟨b, bs⟩⟩
  · exact Nat.zero_lt_two
  · exact Nat.one_lt_two
  · cases h

/-- Operand bytes are rejected only where there are fewer than the opcode's bits 7-6 ask for (R102, R143). -/
theorem length_lt_of_decodeOperands_error {op : Byte} {m : Opcode} {bs : List Byte} {e : DecodeError}
    (h : decodeOperands op m bs = .error e) : bs.length < operandCount m.byte := by
  cases m with
  | halt => cases h
  | print | push | pop => exact length_lt_of_decodeOne_error h
  | ldi | add | sub | mul | div => exact length_lt_of_decodeTwo_error h

/-- No opcode has more than two operand bytes (R103). -/
theorem operandCount_byte_le_two (m : Opcode) : operandCount m.byte ≤ 2 := by
  cases m <;> decide

@[simp] theorem opcodeByte_halt : Instr.halt.opcodeByte = 0x01#8 := rfl
@[simp] theorem opcodeByte_ldi (a b : Byte) : (Instr.ldi a b).opcodeByte = 0x82#8 := rfl
@[simp] theorem opcodeByte_print (a : Byte) : (Instr.print a).opcodeByte = 0x47#8 := rfl
@[simp] theorem opcodeByte_push (a : Byte) : (Instr.push a).opcodeByte = 0x45#8 := rfl
@[simp] theorem opcodeByte_pop (a : Byte) : (Instr.pop a).opcodeByte = 0x46#8 := rfl
@[simp] theorem opcodeByte_add (a b : Byte) : (Instr.add a b).opcodeByte = 0xA0#8 := rfl
@[simp] theorem opcodeByte_sub (a b : Byte) : (Instr.sub a b).opcodeByte = 0xA1#8 := rfl
@[simp] theorem opcodeByte_mul (a b : Byte) : (Instr.mul a b).opcodeByte = 0xA2#8 := rfl
@[simp] theorem opcodeByte_div (a b : Byte) : (Instr.div a b).opcodeByte = 0xA3#8 := rfl

/-- HALT's opcode byte is no other instruction's (R107). -/
theorem opcodeByte_eq_halt_iff {i : Instr} : i.opcodeByte = 0x01#8 ↔ i = .halt := by
  cases i <;> simp

end Sys2Proof

namespace Sys2Proof.Machine

open Sys2Proof

/-! ### Fetching -/

theorem Memory.read?_eq_some_iff {m : Memory} {a : Nat} {v : Byte} :
    m.read? a = some v ↔ a < 256 ∧ lookupCell a m.cells = v := by
  by_cases h : a < 256
  · simp [Memory.read?_of_lt m h, h]
  · simp [Memory.read?_of_ge m (Nat.not_lt.mp h), h]

/-- Fetching stops at the end of the memory and nowhere else. -/
theorem fetchFrom_length (m : Memory) (a n : Nat) : (fetchFrom m a n).length = min n (256 - a) := by
  induction n generalizing a with
  | zero => simp [fetchFrom]
  | succ n ih =>
    by_cases h : a < 256
    · rw [fetchFrom_of_lt m h, List.length_cons, ih]; omega
    · rw [fetchFrom_of_ge m (by omega), List.length_nil]; omega

/-- The bytes fetched are the bytes in memory, at ascending addresses (R77). -/
theorem read?_of_fetchFrom_getElem? {m : Memory} {a n k : Nat} {v : Byte} (h : (fetchFrom m a n)[k]? = some v) :
    m.read? (a + k) = some v := by
  induction n generalizing a k with
  | zero => cases h
  | succ n ih =>
    by_cases ha : a < 256
    · rw [fetchFrom_of_lt m ha] at h
      cases k with
      | zero => exact (Memory.read?_of_lt m ha).trans h
      | succ k => rw [← ih h]; congr 1; omega
    · rw [fetchFrom_of_ge m (by omega)] at h; cases h

/-- Where the bytes at `pc` decode, memory holds the instruction's encoding from `pc` up. -/
theorem read?_of_decode_ok {s : State} {i : Instr} {rest : List Byte} (h : decode (fetchBytes s) = .ok i rest)
    {k : Nat} {v : Byte} (hk : (encode i)[k]? = some v) : s.mem.read? (s.pc.toNat + k) = some v := by
  apply read?_of_fetchFrom_getElem? (n := 3)
  change (fetchBytes s)[k]? = some v
  rw [eq_encode_append_of_decode_ok h]
  exact List.getElem?_append_left (List.getElem?_eq_some_iff.mp hk).1 |>.trans hk

/-- The first byte fetched is the cell at `pc`, the others are those after it. -/
theorem lookupCell_of_fetchBytes_cons {s : State} {op : Byte} {rest : List Byte} (h : fetchBytes s = op :: rest) :
    s.pc.toNat < 256 ∧ lookupCell s.pc.toNat s.mem.cells = op ∧ rest = fetchFrom s.mem (s.pc.toNat + 1) 2 := by
  by_cases hp : s.pc.toNat < 256
  · rw [fetchBytes, fetchFrom_of_lt s.mem hp, List.cons.injEq] at h
    exact ⟨hp, h.1, h.2.symm⟩
  · rw [fetchBytes, fetchFrom_of_ge s.mem (by omega)] at h; cases h

/-! ### Register operands and register writes -/

/-- A well-formed instruction's register operands name registers (R106). -/
theorem toNat_lt_of_wellFormed {i : Instr} (hw : i.wellFormed = true) {a : Byte} (ha : a ∈ i.regOperands) :
    a.toNat < 8 := by
  simpa using List.all_eq_true.mp hw a ha

/-- What the operand check hands to the handler is the register the operand byte names. -/
theorem val_of_regOperand_eq_some {a : Byte} {ra : RegIndex} (h : regOperand a = some ra) : ra.val = a.toNat := by
  unfold regOperand at h
  split at h
  · cases h; rfl
  · cases h

/-- A handler's effect with one register operand keeps what it keeps for every register the operand can name. -/
theorem regOperand_elim_keeps {α : Type} {f : State → α} {a : Byte} {s : State} {effect : RegIndex → State}
    (h : ∀ ra : RegIndex, ra.val = a.toNat → f (effect ra) = f s) : f ((regOperand a).elim s effect) = f s := by
  cases ha : regOperand a with
  | none => rfl
  | some ra => exact h ra (val_of_regOperand_eq_some ha)

theorem readReg_writeReg_of_val_ne {s : State} {r q : RegIndex} {v : Byte} (h : q.val ≠ r.val) :
    (s.writeReg r v).readReg q = s.readReg q :=
  State.readReg_writeReg_other s r q v fun e => h (congrArg Fin.val e)

/-- After the same write, a register holds the same value in both states where it did before or was the one written. -/
theorem readReg_writeReg_congr {s s' : State} {r q : RegIndex} {v : Byte} (h : q ≠ r → s'.readReg q = s.readReg q) :
    (s'.writeReg r v).readReg q = (s.writeReg r v).readReg q := by
  by_cases hq : q = r
  · simp [hq]
  · simp only [State.readReg_writeReg_other _ _ _ _ hq, h hq]

/-! ### What an instruction ends in -/

/-- The fault an instruction takes: a register operand out of range before its own fault condition (R144, R235). -/
def execFault (i : Instr) (s : State) : Option FaultKind :=
  if i.wellFormed then ownFault i s else some .registerFault

/-- The state an instruction ends in. -/
def execResult (i : Instr) (s : State) : State :=
  match execFault i s with
  | some k => s.raise k (some i.opcodeByte)
  | none => completedState i s

theorem execResult_of_fault {i : Instr} {s : State} {k : FaultKind} (h : execFault i s = some k) :
    execResult i s = s.raise k (some i.opcodeByte) := by
  simp [execResult, h]

theorem execResult_of_no_fault {i : Instr} {s : State} (h : execFault i s = none) :
    execResult i s = completedState i s := by
  simp [execResult, h]

theorem exec_eq (i : Instr) (s : State) : exec i s = .next (execResult i s) := by
  rcases exec_cases i s with ⟨hw, h⟩ | ⟨k, hw, hk, h⟩ | ⟨hw, hk, h⟩
  · have hf : execFault i s = some .registerFault := by simp [execFault, hw]
    rw [h, execResult_of_fault hf]
  · have hf : execFault i s = some k := by simp [execFault, hw, hk]
    rw [h, execResult_of_fault hf]
  · have hf : execFault i s = none := by simp [execFault, hw, hk]
    rw [h, execResult_of_no_fault hf]

theorem eq_execResult {i : Instr} {s t : State} (h : exec i s = .next t) : t = execResult i s := by
  rw [exec_eq] at h
  exact (Host.Outcome.next.inj h).symm

theorem wellFormed_of_execFault_eq_none {i : Instr} {s : State} (h : execFault i s = none) : i.wellFormed = true := by
  by_contra hw
  simp [execFault, hw] at h

/-! ### The fault of an instruction and the priority list -/

theorem opcodeByte_mem_definedOpcodes (i : Instr) : i.opcodeByte ∈ definedOpcodes :=
  mem_definedOpcodes_iff.mpr ⟨_, decodeOpcode_byte _⟩

/-- An instruction that decodes lies inside the memory with all its bytes (R141, R143). -/
theorem last_byte_lt_of_decode_ok {s : State} {i : Instr} {rest : List Byte}
    (h : decode (fetchBytes s) = .ok i rest) : s.pc.toNat + i.opcodeByte.toNat / 64 < 256 := by
  have hlast : i.opcodeByte.toNat / 64 < (encode i).length := by
    rw [encode_length, lengthOf, operandCount_eq]; omega
  exact (Memory.read?_eq_some_iff.mp (read?_of_decode_ok h (List.getElem?_eq_getElem hlast))).1

/-- For bytes that decode, the priority list names the fault of the instruction's meaning (R235): the lines on fetch and
opcode name none, and the others ask what `execFault` asks. -/
theorem expectedFault_of_decode_ok {s : State} {i : Instr} {rest : List Byte}
    (h : decode (fetchBytes s) = .ok i rest) :
    expectedFault s = (execFault i s).map fun k => (k, some i.opcodeByte) := by
  have hcell := fun k v hk => (Memory.read?_eq_some_iff.mp (read?_of_decode_ok h (k := k) (v := v) hk)).2
  have hlast := last_byte_lt_of_decode_ok h
  have hpc : ¬ 0x100 ≤ s.pc.toNat := by omega
  have hop : lookupCell s.pc.toNat s.mem.cells = i.opcodeByte := hcell 0 _ rfl
  simp only [expectedFault, hop, if_neg hpc, opcodeByte_mem_definedOpcodes, not_true_eq_false, if_false,
    if_neg (Nat.not_le.mpr hlast), execFault]
  cases i with
  | halt => rfl
  | ldi a b | print a | push a | pop a =>
    rw [hcell 1 a rfl, ← State.sp_eq]
    by_cases ha : a.toNat < 8
    · simp [aluOpcodes, Instr.wellFormed, Instr.regOperands, ownFault, ha, Nat.not_le.mpr ha]
    · simp [Instr.wellFormed, Instr.regOperands, ha, Nat.not_lt.mp ha]
  | add a b | sub a b | mul a b | div a b =>
    rw [hcell 1 a rfl, hcell 2 b rfl]
    by_cases ha : a.toNat < 8
    · by_cases hb : b.toNat < 8
      · simp [aluOpcodes, Instr.wellFormed, Instr.regOperands, ownFault, ha, hb, Nat.not_le.mpr ha, Nat.not_le.mpr hb]
      · simp [aluOpcodes, Instr.wellFormed, Instr.regOperands, ha, hb, Nat.not_le.mpr ha, Nat.not_lt.mp hb]
    · simp [Instr.wellFormed, Instr.regOperands, ha, Nat.not_lt.mp ha]

/-- For bytes that do not decode, the priority list names the fault of fetch or decode (R141, R142, R143). -/
theorem expectedFault_of_decode_error {s : State} {e : DecodeError} (h : decode (fetchBytes s) = .error e) :
    ∃ k op, expectedFault s = some (k, op) ∧ decodeFault e s = .next (s.raise k op) := by
  rcases decode_error_cases h with ⟨hnil, rfl⟩ | ⟨op, rest, hcons, hop, rfl⟩ | ⟨op, rest, m, hcons, hop, rfl⟩
  · have hpc : 0x100 ≤ s.pc.toNat := by
      have := congrArg List.length hnil
      rw [fetchBytes, fetchFrom_length, List.length_nil] at this
      omega
    exact ⟨.addressFault, none, by simp only [expectedFault, if_pos hpc], rfl⟩
  · obtain ⟨hpc, hcell, -⟩ := lookupCell_of_fetchBytes_cons hcons
    have hundef : op ∉ definedOpcodes := by simp [mem_definedOpcodes_iff, hop]
    exact ⟨.unrecognizedOpcode, some op, by
      simp only [expectedFault, if_neg (Nat.not_le.mpr hpc), hcell, if_pos hundef], rfl⟩
  · obtain ⟨hpc, hcell, rfl⟩ := lookupCell_of_fetchBytes_cons hcons
    have hdef : ¬ op ∉ definedOpcodes := by simp [mem_definedOpcodes_iff, hop]
    have hmissing : 0x100 ≤ s.pc.toNat + op.toNat / 64 := by
      have hshort : decodeOperands op m (fetchFrom s.mem (s.pc.toNat + 1) 2) = .error (.missingOperand op) := by
        simpa only [hcons, decode, hop] using h
      have hlen := length_lt_of_decodeOperands_error hshort
      have htwo := operandCount_byte_le_two m
      rw [fetchFrom_length, ← byte_of_decodeOpcode hop, operandCount_eq] at hlen
      rw [← byte_of_decodeOpcode hop, operandCount_eq] at htwo
      omega
    exact ⟨.addressFault, some op, by
      simp only [expectedFault, if_neg (Nat.not_le.mpr hpc), hcell, if_neg hdef, if_pos hmissing], rfl⟩

/-- The two ways a step ends: in the fault the priority list names, or, where it names none, with the decoded instruction
completed (R140, R145, R235). -/
theorem step_ends {s t : State} (h : step s = .next t) :
    (∃ k op, expectedFault s = some (k, op) ∧ t = s.raise k op) ∨
    (expectedFault s = none ∧ ∃ i, s.mem.read? s.pc.toNat = some i.opcodeByte ∧ t = completedState i s) := by
  obtain ⟨-, ⟨i, rest, hdec, hexec⟩ | ⟨e, hdec, hfault⟩⟩ := step_cases h
  · have hexp := expectedFault_of_decode_ok hdec
    cases hf : execFault i s with
    | some k => exact .inl ⟨k, some i.opcodeByte, by rw [hexp, hf]; rfl,
        (eq_execResult hexec).trans (execResult_of_fault hf)⟩
    | none => exact .inr ⟨by rw [hexp, hf]; rfl, i, read?_of_decode_ok hdec (k := 0) rfl,
        (eq_execResult hexec).trans (execResult_of_no_fault hf)⟩
  · obtain ⟨k, op, hexp, hraise⟩ := expectedFault_of_decode_error hdec
    exact .inl ⟨k, op, hexp, (Host.Outcome.next.inj (hfault.symm.trans hraise))⟩

/-! ### The status (R40) -/

/-- Only HALT among the completing instructions writes the status (R150). -/
theorem completedState_status_of_ne_halt {i : Instr} (h : i ≠ .halt) (s : State) :
    (completedState i s).status = s.status := by
  cases i with
  | halt => exact absurd rfl h
  | ldi a b | print a | push a | pop a => exact regOperand_elim_keeps (f := State.status) fun _ _ => rfl
  | add a b | sub a b | mul a b | div a b =>
    exact regOperand_elim_keeps (f := State.status) fun _ _ =>
      regOperand_elim_keeps (f := State.status) fun _ _ => rfl

/-- HALT has no exception (R150). -/
theorem expectedFault_eq_none_of_halt_byte {s : State} (h : s.mem.read? s.pc.toNat = some 0x01#8) :
    expectedFault s = none := by
  obtain ⟨hpc, hcell⟩ := Memory.read?_eq_some_iff.mp h
  simp [expectedFault, hcell, Nat.not_le.mpr hpc, definedOpcodes, aluOpcodes]

/-- A step ends HALTED exactly where the byte at `pc` is HALT's. -/
theorem step_status_halted_iff {s t : State} (h : step s = .next t) :
    t.status = .halted ↔ s.mem.read? s.pc.toNat = some 0x01#8 := by
  obtain ⟨hrun, -⟩ := step_cases h
  rcases step_ends h with ⟨k, op, hexp, rfl⟩ | ⟨-, i, hread, rfl⟩
  · have hno : ¬ s.mem.read? s.pc.toNat = some 0x01#8 := fun hb => by
      rw [expectedFault_eq_none_of_halt_byte hb] at hexp; cases hexp
    simp [hno]
  · rw [hread, Option.some.injEq, opcodeByte_eq_halt_iff]
    by_cases hi : i = .halt
    · simp [hi, completedState]
    · simp [hi, completedState_status_of_ne_halt hi, hrun]

/-- A step ends FAULTED exactly where the priority list names a fault. -/
theorem step_status_faulted_iff {s t : State} (h : step s = .next t) :
    t.status = .faulted ↔ (expectedFault s).isSome = true := by
  obtain ⟨hrun, -⟩ := step_cases h
  rcases step_ends h with ⟨k, op, hexp, rfl⟩ | ⟨hexp, i, -, rfl⟩
  · simp [hexp]
  · by_cases hi : i = .halt
    · simp [hexp, hi, completedState]
    · simp [hexp, completedState_status_of_ne_halt hi, hrun]

theorem execFault_withStatus (i : Instr) (s : State) (st : Status) :
    execFault i { s with status := st } = execFault i s := by
  cases i <;> rfl

/-- No completing instruction reads the status. -/
theorem completedState_withStatus (i : Instr) (s : State) (st : Status) :
    ∃ st', completedState i { s with status := st } = { completedState i s with status := st' } := by
  cases i with
  | halt => exact ⟨.halted, rfl⟩
  | ldi a b | print a | push a | pop a =>
    cases ha : regOperand a <;> simp only [completedState, handlerEffect, ha] <;> exact ⟨st, rfl⟩
  | add a b | sub a b | mul a b | div a b =>
    cases ha : regOperand a <;> cases hb : regOperand b <;> simp only [completedState, handlerEffect, ha, hb] <;>
      exact ⟨st, rfl⟩

/-- No instruction reads the status. -/
theorem execResult_withStatus (i : Instr) (s : State) (st : Status) :
    ∃ st', execResult i { s with status := st } = { execResult i s with status := st' } := by
  have hf := execFault_withStatus i s st
  cases h : execFault i s with
  | some k =>
    rw [execResult_of_fault h, execResult_of_fault (hf.trans h)]
    exact ⟨.faulted, rfl⟩
  | none =>
    rw [execResult_of_no_fault h, execResult_of_no_fault (hf.trans h)]
    exact completedState_withStatus i s st

/-- Settles O17: every step ends in the fault the priority list names or in a completed instruction, of which HALT alone
writes the status; `execResult` reads no status. -/
theorem statusChangesOnlyByHaltOrFault : Obligations.StatusChangesOnlyByHaltOrFault := by
  refine ⟨fun _ => rfl, fun s t h => ⟨step_status_halted_iff h, step_status_faulted_iff h⟩, fun s hs t h => ?_, ?_⟩
  · exact hs (step_cases h).1
  · intro i s t u st ht hu
    obtain rfl := eq_execResult ht
    obtain rfl := eq_execResult hu
    obtain ⟨st', heq⟩ := execResult_withStatus i s st
    simp only [heq, and_self]

/-! ### Registers written -/

/-- An ALU instruction keeps every register but the one its first operand names. -/
theorem aluEffect_readReg_other {a b : Byte} {s : State} {r : RegIndex} (result : Byte → Byte → Byte)
    (hr : r.val ≠ a.toNat) :
    ((regOperand a).elim s fun ra => (regOperand b).elim s fun rb =>
      s.writeReg ra (result (s.readReg ra) (s.readReg rb))).readReg r = s.readReg r :=
  regOperand_elim_keeps (f := fun t => t.readReg r) fun _ ha =>
    regOperand_elim_keeps (f := fun t => t.readReg r) fun _ _ => readReg_writeReg_of_val_ne (ha ▸ hr)

/-- An instruction's effect keeps every register the table does not list as written. -/
theorem handlerEffect_readReg_of_not_written {i : Instr} {s : State} {r : RegIndex} (hr : r.val ∉ i.writtenRegs) :
    (handlerEffect i s).readReg r = s.readReg r := by
  cases i with
  | halt => rfl
  | print a => exact regOperand_elim_keeps (f := fun t => t.readReg r) fun _ _ => rfl
  | ldi a b =>
    have hra : r.val ≠ a.toNat := by simpa [Instr.writtenRegs] using hr
    exact regOperand_elim_keeps (f := fun t => t.readReg r) fun _ ha => readReg_writeReg_of_val_ne (ha ▸ hra)
  | push a =>
    have hsp : r.val ≠ 7 := by simpa [Instr.writtenRegs] using hr
    exact regOperand_elim_keeps (f := fun t => t.readReg r) fun _ _ =>
      readReg_writeReg_of_val_ne (r := Config.spIndex) hsp
  | pop a =>
    obtain ⟨hra, hsp⟩ : r.val ≠ a.toNat ∧ r.val ≠ 7 := by simpa [Instr.writtenRegs] using hr
    exact regOperand_elim_keeps (f := fun t => t.readReg r) fun _ ha =>
      (readReg_writeReg_of_val_ne (r := Config.spIndex) hsp).trans (readReg_writeReg_of_val_ne (ha ▸ hra))
  | add a b | sub a b | mul a b | div a b =>
    exact aluEffect_readReg_other _ (by simpa [Instr.writtenRegs] using hr)

/-- The advance past the instruction writes no register. -/
theorem completedState_regs (i : Instr) (s : State) : (completedState i s).regs = (handlerEffect i s).regs := by
  cases i <;> rfl

theorem execResult_readReg_of_not_written {i : Instr} {s : State} {r : RegIndex} (hr : r.val ∉ i.writtenRegs) :
    (execResult i s).readReg r = s.readReg r := by
  cases h : execFault i s with
  | some k => rw [execResult_of_fault h]; rfl
  | none =>
    rw [execResult_of_no_fault h, State.readReg, completedState_regs]
    exact handlerEffect_readReg_of_not_written hr

/-! ### Registers read -/

/-- The two states hold the same values in the registers the table lists as read. -/
def ReadRegsAgree (i : Instr) (s s' : State) : Prop :=
  ∀ r : RegIndex, r.val ∈ i.readRegs → s'.readReg r = s.readReg r

/-- The fault an instruction takes depends only on the registers the table lists as read. -/
theorem execFault_of_readRegsAgree {i : Instr} {s s' : State} (h : ReadRegsAgree i s s') :
    execFault i s' = execFault i s := by
  cases i with
  | halt | ldi | print | add | sub | mul => rfl
  | push a | pop a =>
    have hsp : s'.sp = s.sp := h 7 (by simp [Instr.readRegs])
    simp only [execFault, ownFault]
    rw [hsp]
  | div a b =>
    by_cases hb : b.toNat < 8
    · have hdiv : s'.regs[b.toNat] = s.regs[b.toNat] := h ⟨b.toNat, hb⟩ (by simp [Instr.readRegs])
      simp [execFault, ownFault, hb, hdiv]
    · simp [execFault, Instr.wellFormed, Instr.regOperands, hb]

/-- A well-formed instruction's effect outside the register file depends on no register but those the table lists as read:
PRINT's emitted byte, PUSH's address and stored byte. -/
theorem handlerEffect_frame_of_readRegsAgree {i : Instr} {s : State} {rs : Vector Byte 8}
    (h : ReadRegsAgree i s { s with regs := rs }) (hw : i.wellFormed = true) :
    ∃ rs', handlerEffect i { s with regs := rs } = { handlerEffect i s with regs := rs' } := by
  cases i with
  | halt => exact ⟨rs, rfl⟩
  | ldi a b | pop a =>
    have ha : a.toNat < 8 := toNat_lt_of_wellFormed hw List.mem_cons_self
    simp only [handlerEffect, regOperand_of_lt ha]
    exact ⟨_, rfl⟩
  | print a =>
    have ha : a.toNat < 8 := toNat_lt_of_wellFormed hw List.mem_cons_self
    have hra := h ⟨a.toNat, ha⟩ (by simp [Instr.readRegs])
    simp only [handlerEffect, regOperand_of_lt ha, Option.elim, hra]
    exact ⟨rs, rfl⟩
  | push a =>
    have ha : a.toNat < 8 := toNat_lt_of_wellFormed hw List.mem_cons_self
    have hsp : ({ s with regs := rs } : State).sp = s.sp := h 7 (by simp [Instr.readRegs])
    have hra := h ⟨a.toNat, ha⟩ (by simp [Instr.readRegs])
    have hval : (({ s with regs := rs } : State).setSp (s.sp - 1)).readReg ⟨a.toNat, ha⟩ =
        (s.setSp (s.sp - 1)).readReg ⟨a.toNat, ha⟩ := readReg_writeReg_congr fun _ => hra
    simp only [handlerEffect, regOperand_of_lt ha, Option.elim, pushEffect, State.sp_setSp, hsp, hval]
    exact ⟨_, rfl⟩
  | add a b | sub a b | mul a b | div a b =>
    have ha : a.toNat < 8 := toNat_lt_of_wellFormed hw List.mem_cons_self
    have hb : b.toNat < 8 := toNat_lt_of_wellFormed hw (List.mem_cons_of_mem _ List.mem_cons_self)
    simp only [handlerEffect, regOperand_of_lt ha, regOperand_of_lt hb]
    exact ⟨_, rfl⟩

/-- The values a well-formed instruction leaves in the registers it writes depend, with memory, on no register but those the
table lists as read. -/
theorem handlerEffect_readReg_of_readRegsAgree {i : Instr} {s s' : State} (h : ReadRegsAgree i s s')
    (hmem : s'.mem = s.mem) (hw : i.wellFormed = true) {r : RegIndex} (hr : r.val ∈ i.writtenRegs) :
    (handlerEffect i s').readReg r = (handlerEffect i s).readReg r := by
  cases i with
  | halt | print a => simp [Instr.writtenRegs] at hr
  | ldi a b =>
    have ha : a.toNat < 8 := toNat_lt_of_wellFormed hw List.mem_cons_self
    have hra : r = ⟨a.toNat, ha⟩ := Fin.ext (List.mem_singleton.mp hr)
    simp only [handlerEffect, regOperand_of_lt ha, Option.elim]
    exact readReg_writeReg_congr fun hne => absurd hra hne
  | push a =>
    have ha : a.toNat < 8 := toNat_lt_of_wellFormed hw List.mem_cons_self
    have hrsp : r = Config.spIndex := Fin.ext (List.mem_singleton.mp hr)
    have hsp : s'.sp = s.sp := h 7 (by simp [Instr.readRegs])
    simp only [handlerEffect, regOperand_of_lt ha, Option.elim]
    change (s'.setSp (s'.sp - 1)).readReg r = (s.setSp (s.sp - 1)).readReg r
    rw [hsp]
    exact readReg_writeReg_congr fun hne => absurd hrsp hne
  | pop a =>
    have ha : a.toNat < 8 := toNat_lt_of_wellFormed hw List.mem_cons_self
    have hwritten : r.val = a.toNat ∨ r.val = 7 := by simpa [Instr.writtenRegs] using hr
    have hsp : s'.sp = s.sp := h 7 (by simp [Instr.readRegs])
    have hpop : ∀ v, (s'.writeReg ⟨a.toNat, ha⟩ v).sp = (s.writeReg ⟨a.toNat, ha⟩ v).sp := fun v =>
      readReg_writeReg_congr fun _ => hsp
    simp only [handlerEffect, regOperand_of_lt ha, Option.elim, popEffect, hmem, hsp, hpop]
    exact readReg_writeReg_congr fun hr7 => readReg_writeReg_congr fun hra =>
      hwritten.elim (fun e => absurd (Fin.ext e) hra) (fun e => absurd (Fin.ext e) hr7)
  | add a b | sub a b | mul a b | div a b =>
    have ha : a.toNat < 8 := toNat_lt_of_wellFormed hw List.mem_cons_self
    have hb : b.toNat < 8 := toNat_lt_of_wellFormed hw (List.mem_cons_of_mem _ List.mem_cons_self)
    have hra : r = ⟨a.toNat, ha⟩ := Fin.ext (List.mem_singleton.mp hr)
    have hx := h ⟨a.toNat, ha⟩ (by simp [Instr.readRegs])
    have hy := h ⟨b.toNat, hb⟩ (by simp [Instr.readRegs])
    simp only [handlerEffect, regOperand_of_lt ha, regOperand_of_lt hb, Option.elim, hx, hy]
    exact readReg_writeReg_congr fun hne => absurd hra hne

/-- What an instruction ends in, outside the register file, depends only on the registers the table lists as read. -/
theorem execResult_frame_of_readRegsAgree {i : Instr} {s : State} {rs : Vector Byte 8}
    (h : ReadRegsAgree i s { s with regs := rs }) :
    ∃ rs', execResult i { s with regs := rs } = { execResult i s with regs := rs' } := by
  have hsame := execFault_of_readRegsAgree h
  cases hf : execFault i s with
  | some k =>
    rw [execResult_of_fault hf, execResult_of_fault (hsame.trans hf)]
    exact ⟨rs, rfl⟩
  | none =>
    obtain ⟨rs', heq⟩ := handlerEffect_frame_of_readRegsAgree h (wellFormed_of_execFault_eq_none hf)
    rw [execResult_of_no_fault hf, execResult_of_no_fault (hsame.trans hf)]
    cases i with
    | halt => exact ⟨rs, rfl⟩
    | _ => exact ⟨rs', by simp only [completedState, heq]; rfl⟩

/-- An instruction that does not end FAULTED has taken no fault. -/
theorem execFault_eq_none_of_not_faulted {i : Instr} {s : State} (h : (execResult i s).status ≠ .faulted) :
    execFault i s = none := by
  cases hf : execFault i s with
  | some k => rw [execResult_of_fault hf] at h; exact absurd rfl h
  | none => rfl

/-- Settles O29: a handler's effect keeps the registers not written, and reads no register but those listed. -/
theorem registersReadAndWrittenAreTheTables : Obligations.RegistersReadAndWrittenAreTheTables := by
  constructor
  · intro i s t r ht hr
    obtain rfl := eq_execResult ht
    exact execResult_readReg_of_not_written hr
  · intro i s s' t t' _ hs' hread ht ht'
    generalize s'.regs = rs at hs' hread
    obtain rfl := hs'
    obtain rfl := eq_execResult ht
    obtain rfl := eq_execResult ht'
    have hagree : ReadRegsAgree i s { s with regs := rs } := hread
    obtain ⟨rs', heq⟩ := execResult_frame_of_readRegsAgree hagree
    refine ⟨by rw [heq], fun hok r hr => ?_⟩
    have hf := execFault_eq_none_of_not_faulted hok
    rw [execResult_of_no_fault hf, execResult_of_no_fault ((execFault_of_readRegsAgree hagree).trans hf),
      completedState_regs, completedState_regs]
    exact handlerEffect_readReg_of_readRegsAgree hagree rfl (wellFormed_of_execFault_eq_none hf) hr

end Sys2Proof.Machine

/-! SUPPORT. Proofs about memory (R72, R77): what the fetch makes of the bytes at `pc`, which instruction writes memory, and
what an instruction and a step read of it. -/

namespace Sys2Proof

/-! ### Decoding an encoding -/

/-- The operand bytes of an instruction are what its operation consumes (R103, R104). -/
theorem decodeOperands_operandBytes (i : Instr) (op : Byte) (rest : List Byte) :
    decodeOperands op i.operation (i.operandBytes ++ rest) = .ok i rest := by
  cases i <;> rfl

/-- Decoding an encoding gives the instruction back, whatever follows (R100, R107). -/
theorem decode_encode_append (i : Instr) (rest : List Byte) : decode (encode i ++ rest) = .ok i rest := by
  have hop : decodeOpcode i.opcodeByte = some i.operation := decodeOpcode_byte i.operation
  simp only [encode, List.cons_append, decode, hop, decodeOperands_operandBytes]

/-- No instruction is longer than the fetch (R102, R115). -/
theorem encode_length_le_three (i : Instr) : (encode i).length ≤ 3 := by
  have htwo : operandCount i.opcodeByte ≤ 2 := operandCount_byte_le_two i.operation
  rw [encode_length, lengthOf]
  omega

end Sys2Proof

namespace Sys2Proof.Machine

open Sys2Proof

/-! ### The fetch and the step, by the bytes in memory -/

/-- Where memory holds `bs` from `a` up, a fetch long enough starts with `bs`. -/
theorem fetchFrom_eq_append {m : Memory} {bs : List Byte} {a n : Nat} (hlen : bs.length ≤ n)
    (h : ∀ (k : Nat) (hk : k < bs.length), m.read? (a + k) = some bs[k]) : ∃ rest, fetchFrom m a n = bs ++ rest := by
  induction bs generalizing a n with
  | nil => exact ⟨_, rfl⟩
  | cons v vs ih =>
    obtain ⟨n, rfl⟩ := Nat.exists_eq_add_of_le' (Nat.le_trans (Nat.le_add_left 1 vs.length) hlen)
    obtain ⟨ha, hv⟩ : a < 256 ∧ lookupCell a m.cells = v :=
      Memory.read?_eq_some_iff.mp (h 0 (Nat.zero_lt_succ _))
    obtain ⟨rest, hrest⟩ := ih (a := a + 1) (Nat.le_of_succ_le_succ hlen) fun k hk => by
      rw [show a + 1 + k = a + (k + 1) by omega]
      exact h (k + 1) (Nat.succ_lt_succ hk)
    exact ⟨rest, by rw [fetchFrom_of_lt m ha, hrest, hv]; rfl⟩

/-- The fetch depends only on the bytes at the addresses it names. -/
theorem fetchFrom_congr {m m' : Memory} {a n : Nat} (h : ∀ k, k < n → m'.read? (a + k) = m.read? (a + k)) :
    fetchFrom m' a n = fetchFrom m a n := by
  induction n generalizing a with
  | zero => rfl
  | succ n ih =>
    have hrest := ih (a := a + 1) fun k hk => by
      rw [show a + 1 + k = a + (k + 1) by omega]
      exact h (k + 1) (Nat.succ_lt_succ hk)
    have hhead : m'.read? a = m.read? a := h 0 n.succ_pos
    simp only [fetchFrom, hhead, hrest]

/-- A running machine's step is the decoded instruction's meaning (R140, R145). -/
theorem step_of_decode_ok {s : State} {i : Instr} {rest : List Byte} (hrun : s.status = .running)
    (h : decode (fetchBytes s) = .ok i rest) : step s = exec i s := by
  simp only [step, hrun, cycle, h]

/-- Where nothing decodes, a running machine's step is the fault of fetch or decode (R141, R142, R143). -/
theorem step_of_decode_error {s : State} {e : DecodeError} (hrun : s.status = .running)
    (h : decode (fetchBytes s) = .error e) : step s = decodeFault e s := by
  simp only [step, hrun, cycle, h]

/-- Settles O7: the fetch starts with the encoding that memory holds at `pc`, and decoding it gives the instruction back. -/
theorem instructionBytesLieAtAscendingAddresses : Obligations.InstructionBytesLieAtAscendingAddresses := by
  intro s i hrun hbytes
  obtain ⟨rest, hfetch⟩ := fetchFrom_eq_append (encode_length_le_three i) hbytes
  have hdec : decode (fetchBytes s) = .ok i rest := by rw [fetchBytes, hfetch, decode_encode_append]
  exact step_of_decode_ok hrun hdec

/-! ### Memory written -/

/-- The advance past the instruction writes no memory. -/
theorem completedState_mem (i : Instr) (s : State) : (completedState i s).mem = (handlerEffect i s).mem := by
  cases i <;> rfl

/-- An instruction leaves a byte of memory as it was where its effect does: a fault writes no memory (R230). -/
theorem execResult_read?_of_handlerEffect {i : Instr} {s : State} {c : Nat}
    (h : (handlerEffect i s).mem.read? c = s.mem.read? c) : (execResult i s).mem.read? c = s.mem.read? c := by
  cases hf : execFault i s with
  | some k => rw [execResult_of_fault hf, State.raise_mem]
  | none => rw [execResult_of_no_fault hf, completedState_mem, h]

/-- PUSH alone has an effect on memory (R72). -/
theorem handlerEffect_mem_of_ne_push {i : Instr} (h : ∀ a, i ≠ .push a) (s : State) :
    (handlerEffect i s).mem = s.mem := by
  cases i with
  | halt => rfl
  | push a => exact absurd rfl (h a)
  | ldi a b | print a | pop a => exact regOperand_elim_keeps (f := State.mem) fun _ _ => rfl
  | add a b | sub a b | mul a b | div a b =>
    exact regOperand_elim_keeps (f := State.mem) fun _ _ => regOperand_elim_keeps (f := State.mem) fun _ _ => rfl

/-- PUSH keeps every byte but the one below SP (R170). -/
theorem handlerEffect_push_read?_other {a : Byte} {s : State} {c : Nat} (hc : c ≠ (s.sp - 1).toNat) :
    (handlerEffect (.push a) s).mem.read? c = s.mem.read? c :=
  regOperand_elim_keeps (f := fun t => t.mem.read? c) fun ra _ => by
    rw [pushEffect_mem, Memory.read?_write, if_neg hc]

/-- An image that fits writes its bytes at 0 and up and no other byte (R263). -/
theorem loadImage_read? {img : List Byte} (h : img.length ≤ 256) (s : State) (c : Nat) :
    (loadImage img s).mem.read? c = if c < img.length then img[c]? else s.mem.read? c := by
  rw [loadImage_mem, Memory.read?_writeBytes _ _ _ (by simpa [Config.loadBase] using h)]
  simp [Config.loadBase]

/-! ### Memory read -/

@[simp] theorem State.sp_withMem (s : State) (m : Memory) : ({ s with mem := m } : State).sp = s.sp := rfl

/-- Whatever memory holds, an instruction's effect outside memory is the same; for POP, where the byte at SP is. -/
theorem handlerEffect_withMem {i : Instr} {s : State} {m : Memory}
    (h : (∀ a, i ≠ .pop a) ∨ m.read s.sp = s.mem.read s.sp) :
    ∃ m', handlerEffect i { s with mem := m } = { handlerEffect i s with mem := m' } := by
  cases i with
  | halt => exact ⟨m, rfl⟩
  | ldi a b | print a | push a =>
    cases ha : regOperand a <;> simp only [handlerEffect, ha] <;> exact ⟨_, rfl⟩
  | pop a =>
    have hread : m.read s.sp = s.mem.read s.sp := h.resolve_left fun hne => hne a rfl
    cases ha : regOperand a with
    | none => simp only [handlerEffect, ha]; exact ⟨m, rfl⟩
    | some ra => simp only [handlerEffect, ha, Option.elim, popEffect, State.sp_withMem, hread]; exact ⟨m, rfl⟩
  | add a b | sub a b | mul a b | div a b =>
    cases ha : regOperand a <;> cases hb : regOperand b <;> simp only [handlerEffect, ha, hb] <;> exact ⟨m, rfl⟩

/-- No instruction's fault depends on memory. -/
theorem execFault_withMem (i : Instr) (s : State) (m : Memory) : execFault i { s with mem := m } = execFault i s := by
  cases i <;> rfl

/-- Whatever memory holds, an instruction ends in the same state outside memory; for POP, where the byte at SP is the
same. -/
theorem execResult_withMem {i : Instr} {s : State} {m : Memory}
    (h : (∀ a, i ≠ .pop a) ∨ m.read s.sp = s.mem.read s.sp) :
    ∃ m', execResult i { s with mem := m } = { execResult i s with mem := m' } := by
  have hsame := execFault_withMem i s m
  cases hf : execFault i s with
  | some k =>
    rw [execResult_of_fault hf, execResult_of_fault (hsame.trans hf)]
    exact ⟨m, rfl⟩
  | none =>
    obtain ⟨m', heq⟩ := handlerEffect_withMem h
    rw [execResult_of_no_fault hf, execResult_of_no_fault (hsame.trans hf)]
    cases i with
    | halt => exact ⟨m, rfl⟩
    | _ => exact ⟨m', by simp only [completedState, heq]; rfl⟩

/-- Two runs of one instruction, from states that differ in memory only, end in states that differ in memory only. -/
theorem exec_eq_outside_mem {i : Instr} {s t t' : State} {m : Memory}
    (h : (∀ a, i ≠ .pop a) ∨ m.read s.sp = s.mem.read s.sp) (ht : exec i s = .next t)
    (ht' : exec i { s with mem := m } = .next t') : t' = { t with mem := t'.mem } := by
  obtain rfl := eq_execResult ht
  obtain rfl := eq_execResult ht'
  obtain ⟨m', heq⟩ := execResult_withMem h
  rw [heq]

/-- Which fault of fetch or decode is taken depends on the rejection alone. -/
theorem decodeFault_eq_raise (e : DecodeError) :
    ∃ k op, ∀ s : State, decodeFault e s = .next (s.raise k op) := by
  cases e with
  | noOpcode | unrecognized op | missingOperand op => exact ⟨_, _, fun _ => rfl⟩

/-- A step reads of memory the bytes the fetch names and, for POP, the byte at SP (R72). -/
theorem step_eq_outside_mem {s t t' : State} {m : Memory}
    (hfetch : ∀ k, k < 3 → m.read? (s.pc.toNat + k) = s.mem.read? (s.pc.toNat + k))
    (hsp : m.read s.sp = s.mem.read s.sp) (ht : step s = .next t) (ht' : step { s with mem := m } = .next t') :
    t' = { t with mem := t'.mem } := by
  have hbytes : fetchBytes { s with mem := m } = fetchBytes s := fetchFrom_congr hfetch
  obtain ⟨hrun, -⟩ := step_cases ht
  obtain ⟨hrun', -⟩ := step_cases ht'
  cases hdec : decode (fetchBytes s) with
  | ok i rest =>
    have hdec' : decode (fetchBytes { s with mem := m }) = .ok i rest := by rw [hbytes, hdec]
    rw [step_of_decode_ok hrun hdec] at ht
    rw [step_of_decode_ok hrun' hdec'] at ht'
    exact exec_eq_outside_mem (.inr hsp) ht ht'
  | error e =>
    obtain ⟨k, op, hraise⟩ := decodeFault_eq_raise e
    have hdec' : decode (fetchBytes { s with mem := m }) = .error e := by rw [hbytes, hdec]
    rw [step_of_decode_error hrun hdec, hraise] at ht
    rw [step_of_decode_error hrun' hdec', hraise] at ht'
    cases ht
    cases ht'
    rfl

/-- Settles O30: PUSH alone has an effect on memory, at SP - 1; `handlerEffect` reads memory at SP only, and only for POP;
what is decoded depends on the bytes the fetch names. -/
theorem onlyPushWritesAndOnlyPopReadsMemory : Obligations.OnlyPushWritesAndOnlyPopReadsMemory := by
  refine ⟨fun i s t ht hne c => ?_, fun a s t c ht hc => ?_, fun img s himg c => loadImage_read? himg s c,
    fun i s t t' m hne => exec_eq_outside_mem (.inl hne), fun s t t' m hfetch hsp => ?_⟩
  · obtain rfl := eq_execResult ht
    exact execResult_read?_of_handlerEffect (by rw [handlerEffect_mem_of_ne_push hne])
  · obtain rfl := eq_execResult ht
    exact execResult_read?_of_handlerEffect (handlerEffect_push_read?_other hc)
  · rw [← State.sp_eq, Memory.read?_toNat, Memory.read?_toNat, Option.some.injEq] at hsp
    exact step_eq_outside_mem hfetch hsp

end Sys2Proof.Machine

/-! SUPPORT. Proofs about the encoding (R102): an instruction's length as its first byte gives it, and the advance of `pc` by
that length. -/

namespace Sys2Proof

/-- The length of R102, with `op[7:6]` as the byte's value divided by 64. -/
theorem lengthOf_eq (op : Byte) : lengthOf op = 1 + op.toNat / 64 := by
  rw [lengthOf, operandCount_eq]

end Sys2Proof

namespace Sys2Proof.Machine

open Sys2Proof

/-- No handler writes `pc`: a completing instruction moves only by its advance (R145). -/
theorem handlerEffect_pc (i : Instr) (s : State) : (handlerEffect i s).pc = s.pc := by
  cases i with
  | halt => rfl
  | ldi a b | print a | push a | pop a => exact regOperand_elim_keeps (f := State.pc) fun _ _ => rfl
  | add a b | sub a b | mul a b | div a b =>
    exact regOperand_elim_keeps (f := State.pc) fun _ _ => regOperand_elim_keeps (f := State.pc) fun _ _ => rfl

/-- Every completing instruction but HALT advances (R145). -/
theorem completedState_of_ne_halt {i : Instr} (h : i ≠ .halt) (s : State) :
    completedState i s = (handlerEffect i s).advance i.opcodeByte := by
  cases i with
  | halt => exact absurd rfl h
  | _ => rfl

theorem completedState_pc_of_ne_halt {i : Instr} (h : i ≠ .halt) (s : State) :
    (completedState i s).pc = s.pc + BitVec.ofNat 9 (lengthOf i.opcodeByte) := by
  rw [completedState_of_ne_halt h, State.advance_pc, handlerEffect_pc]

/-- Settles O4: the encoding and the advance both take `lengthOf` of the opcode byte, and no handler writes `pc`. -/
theorem lengthComesFromOpcodeBits : Obligations.LengthComesFromOpcodeBits := by
  intro i
  refine ⟨i.opcodeByte, i.operandBytes, rfl, ?_, fun hne s t _ ht hok => ?_⟩
  · rw [encode_length, lengthOf_eq]
  · obtain rfl := eq_execResult ht
    rw [execResult_of_no_fault (execFault_eq_none_of_not_faulted hok), completedState_pc_of_ne_halt hne, lengthOf_eq]

end Sys2Proof.Machine

/-! SUPPORT. Proofs about the cycle and HALT (R142, R150): the fault of an illegal opcode, and HALT's step. -/

namespace Sys2Proof

/-- A byte outside the nine selects no operation (R108). -/
theorem decodeOpcode_eq_none {op : Byte} (h : op ∉ Machine.definedOpcodes) : decodeOpcode op = none :=
  Option.eq_none_iff_forall_ne_some.mpr fun m hm => h (mem_definedOpcodes_iff.mpr ⟨m, hm⟩)

/-- An illegal opcode is rejected whatever bytes follow it, or none (R142). -/
theorem decode_cons_of_not_defined {op : Byte} (h : op ∉ Machine.definedOpcodes) (rest : List Byte) :
    decode (op :: rest) = .error (.unrecognized op) := by
  simp only [decode, decodeOpcode_eq_none h]

end Sys2Proof

namespace Sys2Proof.Machine

open Sys2Proof

/-- Where there is a byte at `pc`, the fetch starts with it (R141). -/
theorem fetchBytes_eq_cons {s : State} {op : Byte} (h : s.mem.read? s.pc.toNat = some op) :
    fetchBytes s = op :: fetchFrom s.mem (s.pc.toNat + 1) 2 := by
  obtain ⟨hpc, hcell⟩ := Memory.read?_eq_some_iff.mp h
  rw [fetchBytes, fetchFrom_of_lt s.mem hpc, hcell]

/-- Settles O10: the decoder rejects an illegal first byte whatever the fetch found after it. -/
theorem illegalOpcodeFaultsBeforeOperandFetch : Obligations.IllegalOpcodeFaultsBeforeOperandFetch := by
  intro s op hrun hread hundef
  have hdec : decode (fetchBytes s) = .error (.unrecognized op) := by
    rw [fetchBytes_eq_cons hread, decode_cons_of_not_defined hundef]
  exact step_of_decode_error hrun hdec

/-- HALT's meaning: the status, and neither `pc` nor anything else (R150). -/
theorem exec_halt (s : State) : exec .halt s = .next { s with status := .halted } := rfl

/-- A HALT byte at `pc` decodes to HALT; it has no operand byte to miss, so 0xFF is no exception (R150). -/
theorem decode_fetchBytes_of_halt_byte {s : State} (h : s.mem.read? s.pc.toNat = some 0x01#8) :
    decode (fetchBytes s) = .ok .halt (fetchFrom s.mem (s.pc.toNat + 1) 2) := by
  rw [fetchBytes_eq_cons h]
  exact decode_encode_append .halt _

/-- A HALTED machine has no cycle (R147). -/
theorem step_of_halted {s : State} (h : s.status = .halted) : step s = .fault .machineHalted := by
  simp only [step, h]

/-- Settles O18: a HALT byte decodes to HALT at every address, and HALT's meaning is the change of status alone. -/
theorem haltStopsTheMachine : Obligations.HaltStopsTheMachine := by
  refine ⟨rfl, exec_halt, fun s hrun hbyte => ?_, fun _ => step_of_halted⟩
  rw [step_of_decode_ok hrun (decode_fetchBytes_of_halt_byte hbyte), exec_halt]

end Sys2Proof.Machine

/-! SUPPORT. Proofs about data movement (R161): the step that takes the fault of the priority list, the operand fetch beyond
memory, and LDI's meaning. -/

namespace Sys2Proof.Machine

open Sys2Proof

/-! ### Steps that fault -/

/-- A running machine takes the fault that the priority list names (R235). -/
theorem step_of_expectedFault {s : State} {k : FaultKind} {op : Option Byte} (hrun : s.status = .running)
    (h : expectedFault s = some (k, op)) : step s = .next (s.raise k op) := by
  obtain ⟨t, ht⟩ := step_next_of_running hrun
  rcases step_ends ht with ⟨k', op', hexp, rfl⟩ | ⟨hexp, -⟩
  · cases h.symm.trans hexp
    exact ht
  · cases h.symm.trans hexp

/-- A defined opcode with an operand byte beyond memory is the list's AddressFault, whatever the operands hold (R143). -/
theorem expectedFault_of_missing_operand {s : State} {op : Byte} (hread : s.mem.read? s.pc.toNat = some op)
    (hdef : op ∈ definedOpcodes) (hmissing : 0x100 ≤ s.pc.toNat + op.toNat / 64) :
    expectedFault s = some (.addressFault, some op) := by
  obtain ⟨hpc, hcell⟩ := Memory.read?_eq_some_iff.mp hread
  simp only [expectedFault, hcell, if_neg (Nat.not_le.mpr hpc), hdef, not_true_eq_false, if_false, if_pos hmissing]

/-- From 0xFE and 0xFF the two operand bytes of a three-byte instruction do not both lie inside the memory (R143). -/
theorem last_operand_beyond_memory {pc : PcWord} (h : pc = 0xFE#9 ∨ pc = 0xFF#9) : 0x100 ≤ pc.toNat + 2 := by
  rcases h with rfl | rfl <;> decide

/-! ### LDI -/

/-- LDI with a legal register: the immediate is written, and `pc` advances past the three bytes (R161). -/
theorem exec_ldi_of_lt {a b : Byte} {s : State} (ha : a.toNat < 8) :
    exec (.ldi a b) s = .next { s with regs := s.regs.set a.toNat b, pc := s.pc + 3#9 } := by
  have hlen : lengthOf 0x82#8 = 3 := by decide
  calc exec (.ldi a b) s = .next ((s.writeReg ⟨a.toNat, ha⟩ b).advance 0x82#8) := withReg_of_lt ha
    _ = .next { s with regs := s.regs.set a.toNat b, pc := s.pc + 3#9 } := by rw [State.advance, hlen]; rfl

/-- Settles O19: the register check decides between the write and RegisterFault; at 0xFE and 0xFF the priority list names
AddressFault. -/
theorem ldiWritesTheImmediate : Obligations.LdiWritesTheImmediate := by
  refine fun a b s => ⟨rfl, fun ha => exec_ldi_of_lt ha, fun ha => withReg_of_ge ha, fun hrun hread hpc => ?_⟩
  have hdef : 0x82#8 ∈ definedOpcodes := by decide
  exact step_of_expectedFault hrun (expectedFault_of_missing_operand hread hdef (last_operand_beyond_memory hpc))

end Sys2Proof.Machine

/-! SUPPORT. Proofs about the arithmetic (R190 to R198): an ALU result is an integer reduced modulo 256, and what ADD, SUB, MUL
and DIV do with legal register operands. -/

namespace Sys2Proof.Machine

open Sys2Proof

/-! ### The results on integers -/

/-- A narrowed integer is its representative in 0..255 (R18). -/
theorem toNat_narrow (v : Int) : ((narrow v).toNat : Int) = v % 256 := by
  rw [narrow, BitVec.toNat_ofInt]
  omega

theorem narrow_eq_ofNat {v : Int} {n : Nat} (h : v % 256 = n) : narrow v = BitVec.ofNat 8 n := by
  apply BitVec.eq_of_toNat_eq
  have hv := toNat_narrow v
  rw [BitVec.toNat_ofNat]
  omega

theorem addResult_eq (x y : Byte) : addResult x y = BitVec.ofNat 8 ((x.toNat + y.toNat) % 256) :=
  narrow_eq_ofNat (by omega)

/-- Adding 256 before subtracting keeps the difference natural and its residue the same (R194). -/
theorem subResult_eq (x y : Byte) : subResult x y = BitVec.ofNat 8 ((x.toNat + 256 - y.toNat) % 256) := by
  have hy := y.isLt
  exact narrow_eq_ofNat (by omega)

theorem mulResult_eq (x y : Byte) : mulResult x y = BitVec.ofNat 8 ((x.toNat * y.toNat) % 256) :=
  narrow_eq_ofNat (by push_cast; rfl)

theorem divResult_eq (x y : Byte) : divResult x y = BitVec.ofNat 8 (x.toNat / y.toNat) :=
  BitVec.ofInt_natCast 8 _

/-- The quotient of two bytes fits a byte: DIV never overflows (R191). -/
theorem toNat_divResult (x y : Byte) : (divResult x y).toNat = x.toNat / y.toNat := by
  have hfits : x.toNat / y.toNat < 256 := (Nat.div_le_self _ _).trans_lt x.isLt
  rw [divResult_eq, BitVec.toNat_ofNat, Nat.mod_eq_of_lt hfits]

/-! ### The instructions -/

/-- The ALU opcodes are defined, and bits 7-6 give each of them two operand bytes (R102, R107). -/
theorem defined_and_two_operands_of_mem_aluOpcodes :
    ∀ op ∈ aluOpcodes, op ∈ definedOpcodes ∧ op.toNat / 64 = 2 := by decide

/-- At 0xFE and 0xFF an ALU opcode's operand bytes reach beyond memory (R143). -/
theorem step_of_aluOpcode_at_end {s : State} {op : Byte} (hop : op ∈ aluOpcodes) (hrun : s.status = .running)
    (hread : s.mem.read? s.pc.toNat = some op) (hpc : s.pc = 0xFE#9 ∨ s.pc = 0xFF#9) :
    step s = .next (s.raise .addressFault (some op)) := by
  obtain ⟨hdef, htwo⟩ := defined_and_two_operands_of_mem_aluOpcodes op hop
  have hmissing : 0x100 ≤ s.pc.toNat + op.toNat / 64 := htwo ▸ last_operand_beyond_memory hpc
  exact step_of_expectedFault hrun (expectedFault_of_missing_operand hread hdef hmissing)

/-- What an ALU instruction with a first operand `a` leaves: the result there, `pc` past the three bytes, and nothing else
changed (R191). -/
def aluState (s : State) (a : Byte) (ha : a.toNat < 8) (result : Byte) : State :=
  { s with regs := s.regs.set a.toNat result, pc := s.pc + 3#9 }

section
variable {a b : Byte} {s : State} (ha : a.toNat < 8) (hb : b.toNat < 8)

theorem aluOperation_eq_aluState {op : Byte} (hop : op ∈ aluOpcodes) (result : Byte → Byte → Byte) :
    aluOperation op result ⟨a.toNat, ha⟩ ⟨b.toNat, hb⟩ s =
      .next (aluState s a ha (result s.regs[a.toNat] s.regs[b.toNat])) := by
  have hlen : lengthOf op = 3 := by rw [lengthOf_eq, (defined_and_two_operands_of_mem_aluOpcodes op hop).2]
  rw [aluOperation_eq, State.advance, hlen]
  rfl

theorem exec_add_of_lt : exec (.add a b) s = .next (aluState s a ha (addResult s.regs[a.toNat] s.regs[b.toNat])) :=
  (withRegs_of_lt ha hb).trans (aluOperation_eq_aluState ha hb (by decide) addResult)

theorem exec_sub_of_lt : exec (.sub a b) s = .next (aluState s a ha (subResult s.regs[a.toNat] s.regs[b.toNat])) :=
  (withRegs_of_lt ha hb).trans (aluOperation_eq_aluState ha hb (by decide) subResult)

theorem exec_mul_of_lt : exec (.mul a b) s = .next (aluState s a ha (mulResult s.regs[a.toNat] s.regs[b.toNat])) :=
  (withRegs_of_lt ha hb).trans (aluOperation_eq_aluState ha hb (by decide) mulResult)

/-- DIV by a divisor other than zero completes like the other three (R198). -/
theorem exec_div_of_ne_zero (h : s.regs[b.toNat] ≠ 0x00#8) :
    exec (.div a b) s = .next (aluState s a ha (divResult s.regs[a.toNat] s.regs[b.toNat])) :=
  (withRegs_of_lt ha hb).trans ((if_neg h).trans (aluOperation_eq_aluState ha hb (by decide) divResult))

include ha in
/-- DIV by zero is fault entry (R222). -/
theorem exec_div_of_zero (h : s.regs[b.toNat] = 0x00#8) :
    exec (.div a b) s = .next (s.raise .arithmeticFault (some 0xA3#8)) :=
  (withRegs_of_lt ha hb).trans (if_pos h)

/-- An instruction that ends in `aluState` changes registers and `pc` only, and its first register holds the result (R191). -/
theorem exact_of_exec_eq_aluState {i : Instr} {v : Byte} {z : Int} (h : exec i s = .next (aluState s a ha v))
    (hv : (v.toNat : Int) = z) :
    ∃ t, exec i s = .next t ∧ t = { s with regs := t.regs, pc := t.pc } ∧ (t.regs[a.toNat].toNat : Int) = z :=
  ⟨_, h, rfl, by rw [aluState, Vector.getElem_set_self, hv]⟩

end

/-- Settles O23: the register check decides between the sum, an integer narrowed to a byte, and RegisterFault. -/
theorem addWritesTheSum : Obligations.AddWritesTheSum := by
  refine fun a b s => ⟨rfl, fun ha hb => ?_, fun h => withRegs_of_ge h, step_of_aluOpcode_at_end (by decide)⟩
  rw [exec_add_of_lt ha hb, addResult_eq, aluState]

/-- Settles O24: as O23, with the difference. -/
theorem subWritesTheDifference : Obligations.SubWritesTheDifference := by
  refine fun a b s => ⟨rfl, fun ha hb => ?_, fun h => withRegs_of_ge h, step_of_aluOpcode_at_end (by decide)⟩
  rw [exec_sub_of_lt ha hb, subResult_eq, aluState]

/-- Settles O25: as O23, with the product; 0xA2 has bit 5 set and goes the ALU path. -/
theorem mulWritesTheLowProduct : Obligations.MulWritesTheLowProduct := by
  refine ⟨by decide, fun a b s =>
    ⟨rfl, fun ha hb => ?_, fun h => withRegs_of_ge h, step_of_aluOpcode_at_end (by decide)⟩⟩
  rw [exec_mul_of_lt ha hb, mulResult_eq, aluState]

/-- Settles O28: ADD, SUB and MUL narrow their integer result; DIV's quotient is a byte already, and its one fault is the
divisor zero. -/
theorem aluResultsAreExactModulo256 : Obligations.AluResultsAreExactModulo256 := by
  intro a b s ha hb x y
  have hzero : y = 0 ↔ s.regs[b.toNat] = 0x00#8 := by
    rw [Int.natCast_eq_zero, ← BitVec.toNat_inj, BitVec.toNat_zero]
  refine ⟨exact_of_exec_eq_aluState ha (exec_add_of_lt ha hb) (toNat_narrow _),
    exact_of_exec_eq_aluState ha (exec_sub_of_lt ha hb) (toNat_narrow _),
    exact_of_exec_eq_aluState ha (exec_mul_of_lt ha hb) (toNat_narrow _), fun hy => ?_, fun hy => ?_⟩
  · have hdiv := exec_div_of_ne_zero ha hb (mt hzero.mpr hy)
    exact exact_of_exec_eq_aluState ha hdiv (by rw [toNat_divResult]; exact Int.natCast_ediv _ _)
  · exact ⟨_, exec_div_of_zero ha hb (hzero.mp hy), rfl⟩

end Sys2Proof.Machine

/-! SUPPORT. Proofs about exceptions (R222, R233): which fault record an instruction can leave, and that a terminal state has no
cycle. -/

namespace Sys2Proof.Machine

open Sys2Proof

/-! ### ArithmeticFault -/

/-- No handler writes the fault record: only fault entry does (R230). -/
theorem handlerEffect_fault (i : Instr) (s : State) : (handlerEffect i s).fault = s.fault := by
  cases i with
  | halt => rfl
  | ldi a b | print a | push a | pop a => exact regOperand_elim_keeps (f := State.fault) fun _ _ => rfl
  | add a b | sub a b | mul a b | div a b =>
    exact regOperand_elim_keeps (f := State.fault) fun _ _ => regOperand_elim_keeps (f := State.fault) fun _ _ => rfl

/-- The advance past the instruction writes no fault record either. -/
theorem completedState_fault (i : Instr) (s : State) : (completedState i s).fault = s.fault := by
  rw [← handlerEffect_fault i s]
  cases i <;> rfl

/-- A record that an instruction leaves where there was none names the fault it took (R230). -/
theorem execFault_of_execResult_fault {i : Instr} {s : State} {r : FaultRecord} (hnone : s.fault = none)
    (h : (execResult i s).fault = some r) : execFault i s = some r.kind := by
  cases hf : execFault i s with
  | some k =>
    rw [execResult_of_fault hf, State.raise_fault] at h
    cases h
    rfl
  | none =>
    rw [execResult_of_no_fault hf, completedState_fault, hnone] at h
    cases h

/-- DIV's condition is the only one that names ArithmeticFault (R222). -/
theorem eq_div_of_ownFault_eq_arithmeticFault {i : Instr} {s : State} (h : ownFault i s = some .arithmeticFault) :
    ∃ a b, i = .div a b := by
  cases i with
  | div a b => exact ⟨a, b, rfl⟩
  | push a | pop a =>
    simp only [ownFault] at h
    split at h <;> cases h
  | halt | ldi a b | print a | add a b | sub a b | mul a b => cases h

/-- The operand check, which every instruction shares, takes another fault. -/
theorem eq_div_of_execFault_eq_arithmeticFault {i : Instr} {s : State} (h : execFault i s = some .arithmeticFault) :
    ∃ a b, i = .div a b := by
  unfold execFault at h
  split at h
  · exact eq_div_of_ownFault_eq_arithmeticFault h
  · cases h

/-- Settles O27: DIV by zero is fault entry, a new record names the fault of the instruction, which is ArithmeticFault for DIV
alone, and the other three end in `aluState`, which keeps the status. -/
theorem divideByZeroIsTheOnlyArithmeticFault : Obligations.DivideByZeroIsTheOnlyArithmeticFault := by
  refine ⟨fun a b s ha hb hzero => exec_div_of_zero ha hb hzero, fun i s t r hnone hexec hrec hkind => ?_,
    fun a b s ha hb hrun i hi => ?_⟩
  · obtain rfl := eq_execResult hexec
    exact eq_div_of_execFault_eq_arithmeticFault (hkind ▸ execFault_of_execResult_fault hnone hrec)
  · simp only [List.mem_cons, List.not_mem_nil, or_false] at hi
    rcases hi with rfl | rfl | rfl
    · exact ⟨_, exec_add_of_lt ha hb, hrun⟩
    · exact ⟨_, exec_sub_of_lt ha hb, hrun⟩
    · exact ⟨_, exec_mul_of_lt ha hb, hrun⟩

/-! ### Terminal states -/

/-- HALTED and FAULTED have no transition (R147, R233). -/
theorem step_ne_next_of_not_running {s : State} (h : s.status ≠ .running) (t : State) : step s ≠ .next t :=
  fun hstep => h (step_cases hstep).1

/-- A run from a terminal state takes no cycle, whatever its bound (R62). -/
theorem cycles_of_not_running {s : State} (h : s.status ≠ .running) (n : Nat) : cycles n s = s := by
  cases n with
  | zero => rfl
  | succ n =>
    unfold cycles
    split
    · exact absurd ‹_› (step_ne_next_of_not_running h _)
    · rfl
    · rfl

theorem runCore_of_not_running {s : State} (h : s.status ≠ .running) : runCore s = s := cycles_of_not_running h _

/-- The run interface leaves a session whose machine is not RUNNING as it is (R62). -/
theorem Session.run_of_not_running {m : Session} (h : m.core.status ≠ .running) : m.run = m := if_neg h

/-- Settles O16: FAULTED is not RUNNING, so there is no step and no run; reset keeps nothing of the session. -/
theorem faultsAreTerminal : Obligations.FaultsAreTerminal := by
  intro m hfaulted
  have hstopped : m.core.status ≠ .running := by simp [hfaulted]
  exact ⟨step_ne_next_of_not_running hstopped, Session.run_of_not_running hstopped, runCore_of_not_running hstopped,
    rfl, rfl⟩

end Sys2Proof.Machine

/-! SUPPORT. Proofs about reset and load (R261, R263, R264): what a load does, that it leaves the core ready for its first
cycle, and where that cycle fetches. -/

namespace Sys2Proof.Machine

open Sys2Proof

/-- A load happens on a fresh session, for an image that fits, and stores the image (R263, R264, R265). -/
theorem Session.load_eq_next_iff {m m' : Session} {img : List Byte} :
    m.load img = .next m' ↔ m.phase = .fresh ∧ img.length ≤ 256 ∧ m' = ⟨loadImage img m.core, .loaded⟩ := by
  cases hphase : m.phase with
  | loaded | started => simp [Session.load, hphase]
  | fresh =>
    by_cases hfits : img.length ≤ 256
    · simp [Session.load, hphase, Config.maxImage, hfits, Nat.not_lt.mpr hfits, eq_comm]
    · simp [Session.load, hphase, Config.maxImage, hfits, Nat.lt_of_not_le hfits]

/-- After reset, and after a load that follows it, the core is RUNNING at the reset address (R50, R261). -/
theorem Session.pc_and_status_after_boot {gpr : Fin 7 → Byte} {m m' : Session} {img : List Byte}
    (h : m' = m.resetWith gpr ∨ (m.resetWith gpr).load img = .next m') :
    m'.core.pc = Config.pcReset ∧ m'.core.status = .running := by
  rcases h with rfl | hload
  · exact ⟨rfl, rfl⟩
  · obtain ⟨-, -, rfl⟩ := Session.load_eq_next_iff.mp hload
    exact ⟨loadImage_pc img _, loadImage_status img _⟩

/-- The first byte fetched is the one at `pc`; there is none exactly where `pc` is outside the memory (R141). -/
theorem fetchBytes_getElem?_zero (s : State) : (fetchBytes s)[0]? = s.mem.read? s.pc.toNat := by
  cases hread : s.mem.read? s.pc.toNat with
  | none => simp [fetchBytes, fetchFrom, hread]
  | some op => rw [fetchBytes_eq_cons hread, List.getElem?_cons_zero]

/-- Settles O39: boot ends RUNNING with `pc` at the reset address, which is 0, so the first fetch starts at `M[0x00]`, and a
HALT byte there is the HALT byte at `pc` of O18. -/
theorem firstCycleFetchesAddressZero : Obligations.FirstCycleFetchesAddressZero := by
  intro gpr m m' img hboot
  obtain ⟨hpc, hrun⟩ := Session.pc_and_status_after_boot hboot
  have hzero : m'.core.pc.toNat = 0 := by rw [hpc]; rfl
  obtain ⟨-, -, hhalt, -⟩ := haltStopsTheMachine
  refine ⟨hpc, ?_, fun hbyte => hhalt m'.core hrun ?_⟩
  · rw [fetchBytes_getElem?_zero, hzero]
  · rw [hzero]; exact hbyte

end Sys2Proof.Machine

/-! SUPPORT. Proofs about the encoding (R100 to R113): decoding and encoding are inverse, and the opcode set is closed. -/

namespace Sys2Proof.Machine

open Sys2Proof

/-- Settles O1: the opcode byte selects the instruction's operation, which consumes exactly its operand bytes. -/
theorem decodeOfEncodeIsIdentity : Obligations.DecodeOfEncodeIsIdentity := decode_encode_append

/-- Settles O2: the byte that selects an operation is that operation's opcode byte, and the bytes the operation consumes are
the operand bytes of the instruction it gives. -/
theorem encodeOfDecodeIsIdentity : Obligations.EncodeOfDecodeIsIdentity :=
  fun _ _ _ h => eq_encode_append_of_decode_ok h

/-- Settles O3: `definedOpcodes` lists exactly the bytes that select an operation, and each of them is the opcode byte of
the operation it selects. -/
theorem opcodeSetIsExactlyTheNine : Obligations.OpcodeSetIsExactlyTheNine := by
  refine ⟨fun op hundef rest => decode_cons_of_not_defined hundef rest, fun op hdef => ?_, by decide, rfl⟩
  obtain ⟨m, hm⟩ := mem_definedOpcodes_iff.mp hdef
  exact ⟨m, hm, (byte_of_decodeOpcode hm).symm⟩

/-- Settles O5: each word written out is an encoding with nothing after it. -/
theorem writtenOutWordsDecode : Obligations.WrittenOutWordsDecode :=
  ⟨decode_encode_append .halt [], decode_encode_append (.ldi 0 8) [], decode_encode_append (.print 3) [],
    decode_encode_append (.push 7) [], decode_encode_append (.pop 1) [], decode_encode_append (.add 5 6) [],
    decode_encode_append (.sub 2 1) [], decode_encode_append (.mul 0 1) [], decode_encode_append (.div 4 3) []⟩

end Sys2Proof.Machine

/-! SUPPORT. Proofs about the cycle (R140 to R145, R230, R235): what a step runs, which fault it takes and what fault entry
leaves, and where `pc` goes. -/

namespace Sys2Proof.Machine

open Sys2Proof

/-! ### What a step runs -/

/-- Settles O6: the step of a RUNNING machine is a cycle, whose one branch for a decoded instruction is its meaning. -/
theorem stepExecutesDecodedInstruction : Obligations.StepExecutesDecodedInstruction :=
  fun _ _ _ hrun hdec => step_of_decode_ok hrun hdec

/-- Three bytes from the place chosen for them lie inside the memory. -/
theorem placeAt_add_three_le (s : State) : placeAt s + 3 ≤ 256 := by
  unfold placeAt Config.memSize
  split <;> omega

theorem placeBytes_pc_toNat (s : State) (bs : List Byte) : (s.placeBytes bs).pc.toNat = placeAt s := by
  have hplace := placeAt_add_three_le s
  rw [State.placeBytes_pc, BitVec.toNat_ofNat]
  omega

/-- Up to three placed bytes are where the next cycle fetches. -/
theorem placeBytes_read? {s : State} {bs : List Byte} (hlen : bs.length ≤ 3) (k : Nat) (hk : k < bs.length) :
    (s.placeBytes bs).mem.read? ((s.placeBytes bs).pc.toNat + k) = some bs[k] := by
  have hplace := placeAt_add_three_le s
  rw [placeBytes_pc_toNat, State.placeBytes_mem, Memory.read?_writeBytes _ _ _ (by omega), if_pos (by omega),
    Nat.add_sub_cancel_left, List.getElem?_eq_getElem hk]

/-- The next cycle decodes what the placed bytes decode to. -/
theorem decode_fetchBytes_placeBytes {s : State} {bs rest : List Byte} {i : Instr} (hlen : bs.length ≤ 3)
    (h : decode bs = .ok i rest) : ∃ rest', decode (fetchBytes (s.placeBytes bs)) = .ok i rest' := by
  obtain ⟨more, hfetch⟩ := fetchFrom_eq_append hlen (placeBytes_read? (s := s) hlen)
  refine ⟨rest ++ more, ?_⟩
  rw [fetchBytes, hfetch, eq_encode_append_of_decode_ok h, List.append_assoc, decode_encode_append]

theorem decode_of_decodeTableWord {nbits w : Nat} {i : Instr} (h : decodeTableWord nbits w = some i) :
    ∃ rest, decode (tableWordBytes nbits w) = .ok i rest := by
  unfold decodeTableWord at h
  split at h
  · cases h; exact ⟨_, ‹_›⟩
  · cases h

/-- Settles O8: the three bytes of the word lie where the next cycle fetches, in a machine that placing has made RUNNING. -/
theorem stepRunsPlacedTableWord : Obligations.StepRunsPlacedTableWord := by
  intro s nbits w i hword
  obtain ⟨rest, hdec⟩ := decode_of_decodeTableWord hword
  obtain ⟨rest', hfetch⟩ := decode_fetchBytes_placeBytes (s := s) (bs := tableWordBytes nbits w) (Nat.le_refl 3) hdec
  exact step_of_decode_ok rfl hfetch

/-! ### The fault a step takes -/

/-- Settles O9: the opcode fetch is the first line of the priority list. -/
theorem opcodeFetchBeyondMemoryFaults : Obligations.OpcodeFetchBeyondMemoryFaults :=
  fun _ hrun hpc => step_of_expectedFault hrun (if_pos hpc)

theorem operands_le_two_of_defined : ∀ op ∈ definedOpcodes, op.toNat / 64 ≤ 2 := by decide

/-- Settles O11: a defined opcode inside memory has at most two operand bytes, so that they reach beyond memory only from
0xFE and 0xFF. -/
theorem operandFetchBeyondMemoryFaults : Obligations.OperandFetchBeyondMemoryFaults := by
  intro s op hrun hread hdef
  have hpc : s.pc.toNat < 256 := (Memory.read?_eq_some_iff.mp hread).1
  have htwo := operands_le_two_of_defined op hdef
  refine ⟨?_, fun hmissing => step_of_expectedFault hrun (expectedFault_of_missing_operand hread hdef hmissing)⟩
  have hFF : s.pc = 0xFF#9 ↔ s.pc.toNat = 0xFF := BitVec.toNat_inj.symm
  have hFE : s.pc = 0xFE#9 ↔ s.pc.toNat = 0xFE := BitVec.toNat_inj.symm
  rw [hFF, hFE]
  omega

theorem execFault_of_not_wellFormed {i : Instr} {s : State} (h : i.wellFormed = false) :
    execFault i s = some .registerFault := by
  simp [execFault, h]

/-- Settles O12: the register check comes before everything else in an instruction's meaning. -/
theorem registerOperandOutOfRangeFaults : Obligations.RegisterOperandOutOfRangeFaults := by
  intro i s hw
  rw [exec_eq, execResult_of_fault (execFault_of_not_wellFormed hw)]
  rfl

/-- Settles O13: a running machine takes a step, and it ends in the fault the list names or, where it names none, not
FAULTED. -/
theorem faultsFollowThePriorityList : Obligations.FaultsFollowThePriorityList := by
  refine fun s hrun => ⟨fun k op hexp => step_of_expectedFault hrun hexp, fun hnone => ?_⟩
  obtain ⟨t, ht⟩ := step_next_of_running hrun
  refine ⟨t, ht, fun hfaulted => ?_⟩
  simpa [hnone] using (step_status_faulted_iff ht).mp hfaulted

/-! ### Fault entry -/

/-- What the priority list names is precise and legal: the opcode is the byte at `pc`, and R220's table allows the kind with
it. One case for each line of the list. -/
theorem expectedFault_precise {s : State} {k : FaultKind} {op : Option Byte} (h : expectedFault s = some (k, op)) :
    op = s.mem.read? s.pc.toNat ∧ FaultRecord.legal ⟨k, s.pc, op⟩ := by
  by_cases hpc : 0x100 ≤ s.pc.toNat
  · rw [expectedFault, if_pos hpc] at h
    cases h
    exact ⟨(Memory.read?_of_ge s.mem hpc).symm, .inl ⟨rfl, hpc⟩⟩
  · rw [Memory.read?_of_lt s.mem (Nat.lt_of_not_le hpc)]
    simp only [expectedFault, if_neg hpc] at h
    generalize lookupCell s.pc.toNat s.mem.cells = opcode at h
    split at h
    · next hundef => cases h; exact ⟨rfl, opcode, rfl, hundef⟩
    next hdef =>
    rw [not_not] at hdef
    split at h
    · next hmissing => cases h; exact ⟨rfl, .inr ⟨opcode, rfl, hdef, hmissing⟩⟩
    split at h
    · next hreg => cases h; exact ⟨rfl, opcode, rfl, hdef, hreg.1⟩
    split at h
    · next hreg =>
      cases h
      exact ⟨rfl, opcode, rfl, hdef, fun hhalt => absurd (hhalt ▸ hreg.1) (by decide)⟩
    split at h
    · next hdiv => cases h; exact ⟨rfl, congrArg some hdiv.1⟩
    split at h
    · next hpush => cases h; exact ⟨rfl, congrArg some hpush.1⟩
    split at h
    · next hpop => cases h; exact ⟨rfl, congrArg some hpop.1⟩
    · cases h

/-- A step that ends FAULTED is the entry of the fault the priority list names. -/
theorem step_faulted_inv {s t : State} (h : step s = .next t) (hfaulted : t.status = .faulted) :
    ∃ k op, expectedFault s = some (k, op) ∧ t = s.raise k op := by
  refine (step_ends h).resolve_right fun ⟨hnone, _⟩ => ?_
  simpa [hnone] using (step_status_faulted_iff h).mp hfaulted

/-- Settles O14: fault entry writes the record the priority list names, which is precise and legal. -/
theorem faultEntryWritesOnlyStatusAndRecord : Obligations.FaultEntryWritesOnlyStatusAndRecord := by
  intro s t hstep hfaulted
  obtain ⟨k, op, hexp, rfl⟩ := step_faulted_inv hstep hfaulted
  obtain ⟨hop, hlegal⟩ := expectedFault_precise hexp
  exact ⟨⟨k, s.pc, op⟩, rfl, rfl, hop, hlegal⟩

/-! ### The program counter -/

/-- Where the list names no fault, all bytes of the instruction at `pc` lie inside memory (R143). -/
theorem last_byte_lt_of_no_expectedFault {s : State} {op : Byte} (hread : s.mem.read? s.pc.toNat = some op)
    (hdef : op ∈ definedOpcodes) (hnone : expectedFault s = none) : s.pc.toNat + op.toNat / 64 < 0x100 := by
  by_contra hmissing
  rw [expectedFault_of_missing_operand hread hdef (Nat.le_of_not_lt hmissing)] at hnone
  cases hnone

/-- A completed instruction other than HALT leaves `pc` past its last byte, with no wrap (R37). -/
theorem completedState_pc_toNat {i : Instr} {s : State} (hi : i ≠ .halt)
    (hlast : s.pc.toNat + i.opcodeByte.toNat / 64 < 0x100) :
    (completedState i s).pc.toNat = s.pc.toNat + 1 + i.opcodeByte.toNat / 64 := by
  rw [completedState_pc_of_ne_halt hi, lengthOf_eq, BitVec.toNat_add, BitVec.toNat_ofNat]
  omega

/-- Settles O15: fault entry and HALT keep `pc`; any other completed instruction advances past bytes that all lie inside
memory. -/
theorem pcOnlyAdvancesSequentially : Obligations.PcOnlyAdvancesSequentially := by
  intro s t hstep
  rcases step_ends hstep with ⟨k, op, -, rfl⟩ | ⟨hnone, i, hread, rfl⟩
  · exact ⟨by simp, fun _ => rfl⟩
  · by_cases hi : i = .halt
    · subst hi
      exact ⟨by simp [completedState], fun _ => rfl⟩
    · have hlast := last_byte_lt_of_no_expectedFault hread (opcodeByte_mem_definedOpcodes i) hnone
      have hpc := completedState_pc_toNat hi hlast
      have hrun : (completedState i s).status = .running :=
        (completedState_status_of_ne_halt hi s).trans (step_cases hstep).1
      exact ⟨fun _ => ⟨i.opcodeByte, hread, hpc, by omega⟩, fun hstop => absurd hrun hstop⟩

end Sys2Proof.Machine

/-! SUPPORT. Proofs about the invariant (R36, R38, R230; log entry 13): memory keeps its canonical form, which is unique, and
fault entry alone writes a record. -/

namespace Sys2Proof.Machine

open Sys2Proof

/-! ### Every step keeps the invariant -/

/-- Every handler keeps the canonical form: PUSH's is one write, the others write no memory. -/
theorem handlerEffect_mem_wf {i : Instr} {s : State} (h : s.mem.wf = true) : (handlerEffect i s).mem.wf = true := by
  by_cases hpush : ∃ a, i = .push a
  · obtain ⟨a, rfl⟩ := hpush
    cases ha : regOperand a with
    | none => simpa only [handlerEffect, ha, Option.elim] using h
    | some ra =>
      simp only [handlerEffect, ha, Option.elim, pushEffect_mem]
      exact Memory.write_wf h _ _
  · rw [handlerEffect_mem_of_ne_push (fun a e => hpush ⟨a, e⟩)]
    exact h

/-- In a RUNNING machine that meets the invariant there is no record. -/
theorem State.Inv.fault_eq_none {s : State} (h : s.Inv) (hrun : s.status = .running) : s.fault = none := by
  cases hf : s.fault with
  | none => rfl
  | some r =>
    have hfaulted := h.recordIffFaulted.mp (by rw [hf]; rfl)
    rw [hrun] at hfaulted
    cases hfaulted

/-- A state with no record and not FAULTED meets the invariant where memory is canonical and `pc` in range. -/
theorem State.Inv.of_no_record {s : State} (hmem : s.mem.wf = true) (hpc : s.pc.toNat ≤ 0x100) (hnone : s.fault = none)
    (hstatus : s.status ≠ .faulted) : s.Inv where
  memoryCanonical := hmem
  pcInRange := hpc
  recordIffFaulted := by simp [hnone, hstatus]
  recordPrecise := by simp [hnone]

/-- Entry of the fault the priority list names keeps the invariant: its record is the one in FAULTED, and it is precise. -/
theorem State.Inv.raise {s : State} {k : FaultKind} {op : Option Byte} (h : s.Inv)
    (hexp : expectedFault s = some (k, op)) : (s.raise k op).Inv where
  memoryCanonical := h.memoryCanonical
  pcInRange := h.pcInRange
  recordIffFaulted := by simp
  recordPrecise := by
    intro r hr
    obtain rfl := Option.some.inj hr
    obtain ⟨hop, hlegal⟩ := expectedFault_precise hexp
    exact ⟨rfl, hop, hlegal⟩

theorem step_pc_le {s t : State} (h : step s = .next t) (hpc : s.pc.toNat ≤ 0x100) : t.pc.toNat ≤ 0x100 := by
  obtain ⟨hmoves, hstays⟩ := pcOnlyAdvancesSequentially s t h
  by_cases hrun : t.status = .running
  · obtain ⟨-, -, -, hle⟩ := hmoves hrun
    exact hle
  · rwa [hstays hrun]

/-- Settles O44: a step is the entry of the fault the priority list names, or a completed instruction, which writes no
record and at most one memory cell. -/
theorem everyStepKeepsTheInvariant : Obligations.EveryStepKeepsTheInvariant := by
  intro s t hinv hstep
  obtain ⟨hrun, -⟩ := step_cases hstep
  have hpc := step_pc_le hstep hinv.pcInRange
  have hok := mt (step_status_faulted_iff hstep).mp
  rcases step_ends hstep with ⟨k, op, hexp, rfl⟩ | ⟨hnone, i, -, rfl⟩
  · exact hinv.raise hexp
  · refine .of_no_record ?_ hpc ?_ (hok (by simp [hnone]))
    · rw [completedState_mem]
      exact handlerEffect_mem_wf hinv.memoryCanonical
    · rw [completedState_fault, hinv.fault_eq_none hrun]

/-! ### The invariant at the start of a run -/

/-- Settles O45: reset leaves an empty memory, and a load writes bytes to it and nothing else. -/
theorem resetAndLoadMeetTheInvariant : Obligations.ResetAndLoadMeetTheInvariant := by
  intro gpr m
  have hrun : (m.resetWith gpr).core.status ≠ .faulted := Status.noConfusion
  have hmem := State.resetWith_mem_wf gpr
  refine ⟨.of_no_record hmem (Nat.zero_le _) rfl hrun, fun img m' hload => ?_⟩
  obtain ⟨-, -, rfl⟩ := Session.load_eq_next_iff.mp hload
  exact .of_no_record (loadImage_mem_wf img hmem) (Nat.zero_le _) rfl hrun

/-! ### The canonical form is unique -/

theorem cellsWf_cons_iff {lo : Nat} {c : Host.Cell} {cs : List Host.Cell} :
    cellsWf lo (c :: cs) = true ↔
      lo ≤ c.1 ∧ c.1 < 256 ∧ c.2 ≠ Config.unlistedByte ∧ cellsWf (c.1 + 1) cs = true := by
  simp only [cellsWf, Bool.and_eq_true, decide_eq_true_eq, and_assoc]
  rfl

/-- An address below the first one a canonical list may hold is unlisted. -/
theorem lookupCell_of_lt_cellsWf {lo a : Nat} {cs : List Host.Cell} (hw : cellsWf lo cs = true) (ha : a < lo) :
    lookupCell a cs = Config.unlistedByte := by
  induction cs generalizing lo with
  | nil => rfl
  | cons c cs ih =>
    obtain ⟨hlo, -, -, hcs⟩ := cellsWf_cons_iff.mp hw
    rw [lookupCell, if_neg (by omega), ih hcs (by omega)]

/-- Of two canonical lists that read alike inside the memory, neither starts at an address below the other's start. -/
theorem fst_le_of_lookupCell_eq {lo : Nat} {c d : Host.Cell} {cs ds : List Host.Cell}
    (hc : cellsWf lo (c :: cs) = true) (hd : cellsWf lo (d :: ds) = true)
    (h : ∀ a < 256, lookupCell a (c :: cs) = lookupCell a (d :: ds)) : d.1 ≤ c.1 := by
  obtain ⟨-, hlt, hlisted, -⟩ := cellsWf_cons_iff.mp hc
  obtain ⟨-, -, -, hds⟩ := cellsWf_cons_iff.mp hd
  by_contra hbelow
  have hread := h c.1 hlt
  rw [lookupCell, lookupCell, if_pos rfl, if_neg (by omega), lookupCell_of_lt_cellsWf hds (by omega)] at hread
  exact hlisted hread

/-- A canonical list that reads as unlisted everywhere is empty. -/
theorem eq_nil_of_lookupCell_unlisted {lo : Nat} {cs : List Host.Cell} (hw : cellsWf lo cs = true)
    (h : ∀ a < 256, lookupCell a cs = Config.unlistedByte) : cs = [] := by
  cases cs with
  | nil => rfl
  | cons c cs =>
    obtain ⟨-, hlt, hlisted, -⟩ := cellsWf_cons_iff.mp hw
    exact absurd ((if_pos rfl).symm.trans (h c.1 hlt)) hlisted

theorem cells_eq_of_lookupCell_eq {lo : Nat} {cs ds : List Host.Cell} (hc : cellsWf lo cs = true)
    (hd : cellsWf lo ds = true) (h : ∀ a < 256, lookupCell a cs = lookupCell a ds) : cs = ds := by
  induction cs generalizing lo ds with
  | nil => exact (eq_nil_of_lookupCell_unlisted hd fun a ha => (h a ha).symm).symm
  | cons c cs ih =>
    cases ds with
    | nil => exact eq_nil_of_lookupCell_unlisted hc h
    | cons d ds =>
      have haddr : c.1 = d.1 := Nat.le_antisymm (fst_le_of_lookupCell_eq hd hc fun a ha => (h a ha).symm)
        (fst_le_of_lookupCell_eq hc hd h)
      obtain ⟨-, hlt, -, hcs⟩ := cellsWf_cons_iff.mp hc
      obtain ⟨-, -, -, hds⟩ := cellsWf_cons_iff.mp hd
      have hval : c.2 = d.2 := by simpa [lookupCell, haddr] using h c.1 hlt
      rw [← haddr] at hds
      have htail : cs = ds := ih hcs hds fun a ha => by
        by_cases hne : c.1 = a
        · rw [lookupCell_of_lt_cellsWf hcs (by omega), lookupCell_of_lt_cellsWf hds (by omega)]
        · simpa [lookupCell, ← haddr, hne] using h a ha
      rw [Prod.ext haddr hval, htail]

/-- Settles O46: by induction on the lists of cells; their first cells are at the same address, the lower one being listed in
one list and unlisted in the other otherwise. -/
theorem canonicalMemoriesThatReadAlikeAreEqual : Obligations.CanonicalMemoriesThatReadAlikeAreEqual := by
  intro m m' hw hw' hread
  have hcells : m.cells = m'.cells := cells_eq_of_lookupCell_eq hw hw' fun a ha => by
    simpa [Memory.read?_of_lt _ ha] using hread a ha
  cases m
  cases m'
  exact congrArg Memory.mk hcells

end Sys2Proof.Machine

/-! SUPPORT. Proofs about single instructions (R165, R170, R175, R198): PRINT, PUSH, POP and DIV with legal register operands,
and the fault of a two-byte instruction at the end of memory. -/

namespace Sys2Proof.Machine

open Sys2Proof

/-- At 0xFF the one operand byte of a two-byte instruction lies beyond memory (R143). -/
theorem step_of_two_byte_opcode_at_end {s : State} {op : Byte} (hop : op ∈ definedOpcodes ∧ op.toNat / 64 = 1)
    (hrun : s.status = .running) (hread : s.mem.read? s.pc.toNat = some op) (hpc : s.pc = 0xFF#9) :
    step s = .next (s.raise .addressFault (some op)) := by
  obtain ⟨hdef, hone⟩ := hop
  have hmissing : 0x100 ≤ s.pc.toNat + op.toNat / 64 := by rw [hone, hpc]; decide
  exact step_of_expectedFault hrun (expectedFault_of_missing_operand hread hdef hmissing)

section
variable {a : Byte} {s : State} (ha : a.toNat < 8)

/-- PRINT with a legal register: its value is appended to the output, and `pc` advances past the two bytes (R165). -/
theorem exec_print_of_lt :
    exec (.print a) s = .next { s with out := s.out ++ [s.regs[a.toNat]], pc := s.pc + 2#9 } := by
  have hlen : lengthOf 0x47#8 = 2 := by decide
  calc exec (.print a) s = .next ((s.emit (s.readReg ⟨a.toNat, ha⟩)).advance 0x47#8) := withReg_of_lt ha
    _ = .next { s with out := s.out ++ [s.regs[a.toNat]], pc := s.pc + 2#9 } := by rw [State.advance, hlen]; rfl

/-- PUSH of a legal register with room below SP: the register as it is after the decrement goes to the new top (R170). -/
theorem exec_push_of_lt (hsp : s.regs[7] ≠ 0x00#8) :
    exec (.push a) s = .next { s with
      regs := s.regs.set 7 (s.regs[7] - 1)
      pc := s.pc + 2#9
      mem := s.mem.write (s.regs[7] - 1) (s.regs.set 7 (s.regs[7] - 1))[a.toNat] } := by
  have hlen : lengthOf 0x45#8 = 2 := by decide
  calc exec (.push a) s = .next ((pushEffect ⟨a.toNat, ha⟩ s).advance 0x45#8) :=
        (withReg_of_lt ha).trans (if_neg hsp)
    _ = _ := by rw [State.advance, hlen, pushEffect, State.sp_setSp]; rfl

/-- POP into a legal register below the top of memory: the byte at SP, then SP as it is after that plus one (R175). -/
theorem exec_pop_of_lt (hsp : s.regs[7] ≠ 0xFF#8) {v : Byte} (hv : s.mem.read s.regs[7] = v) :
    exec (.pop a) s = .next { s with
      regs := (s.regs.set a.toNat v).set 7 ((s.regs.set a.toNat v)[7] + 1)
      pc := s.pc + 2#9 } := by
  subst hv
  have hlen : lengthOf 0x46#8 = 2 := by decide
  calc exec (.pop a) s = .next ((popEffect ⟨a.toNat, ha⟩ s).advance 0x46#8) := (withReg_of_lt ha).trans (if_neg hsp)
    _ = _ := by rw [State.advance, hlen]; rfl

end

/-- Settles O20: the register check decides between the output and RegisterFault. -/
theorem printEmitsTheRegister : Obligations.PrintEmitsTheRegister :=
  fun _ _ => ⟨rfl, fun ha => exec_print_of_lt ha, fun ha => withReg_of_ge ha, step_of_two_byte_opcode_at_end (by decide)⟩

/-- Settles O21: the register check comes before the bound on SP; a push is one write, at SP - 1. -/
theorem pushStoresBelowTheStackPointer : Obligations.PushStoresBelowTheStackPointer := by
  intro a s
  exact ⟨rfl, fun ha hsp => ⟨_, exec_push_of_lt ha hsp, rfl, rfl, rfl, rfl, rfl, fun c => Memory.read?_write _ _ _ c⟩,
    fun ha hsp => (withReg_of_lt ha).trans (if_pos hsp), fun ha => withReg_of_ge ha,
    step_of_two_byte_opcode_at_end (by decide)⟩

/-- Settles O22: the register check comes before the bound on SP; SP is an 8-bit address, so the byte there exists. -/
theorem popLoadsFromTheStackPointer : Obligations.PopLoadsFromTheStackPointer := by
  intro a s
  refine ⟨rfl, fun ha hsp v hv => ?_, fun ha hsp => (withReg_of_lt ha).trans (if_pos hsp), fun ha => withReg_of_ge ha,
    step_of_two_byte_opcode_at_end (by decide)⟩
  rw [Memory.read?_toNat, Option.some.injEq] at hv
  exact exec_pop_of_lt ha hsp hv

/-- Settles O26: as O23, with the quotient, for a divisor other than zero. -/
theorem divWritesTheQuotient : Obligations.DivWritesTheQuotient := by
  refine fun a b s => ⟨rfl, fun ha hb hne => ?_, fun h => withRegs_of_ge h, step_of_aluOpcode_at_end (by decide)⟩
  rw [exec_div_of_ne_zero ha hb hne, divResult_eq, aluState]

end Sys2Proof.Machine

/-! SUPPORT. Proofs about the frames of the control state (R37, R41, R43, R230): which instruction writes the status, the
record and the output, and that none reads them. -/

namespace Sys2Proof.Machine

open Sys2Proof

/-! ### The output -/

/-- The bytes an instruction that completes emits: PRINT's register, and nothing for the others (R41). -/
def emitted (i : Instr) (s : State) : List Byte :=
  match i with
  | .print a => (regOperand a).elim [] fun ra => [s.readReg ra]
  | _ => []

theorem emitted_of_ne_print {i : Instr} (h : ∀ a, i ≠ .print a) (s : State) : emitted i s = [] := by
  cases i with
  | print a => exact absurd rfl (h a)
  | _ => rfl

theorem emitted_print_of_lt {a : Byte} (ha : a.toNat < 8) (s : State) : emitted (.print a) s = [s.regs[a.toNat]] := by
  simp only [emitted, regOperand_of_lt ha]
  rfl

/-- A handler appends what it emits to the output. -/
theorem handlerEffect_out (i : Instr) (s : State) : (handlerEffect i s).out = s.out ++ emitted i s := by
  have hnone := (List.append_nil s.out).symm
  cases i with
  | halt => exact hnone
  | print a =>
    simp only [handlerEffect, emitted]
    cases regOperand a with
    | none => exact hnone
    | some ra => rfl
  | ldi a b | push a | pop a =>
    refine Eq.trans ?_ hnone
    exact regOperand_elim_keeps (f := State.out) fun _ _ => rfl
  | add a b | sub a b | mul a b | div a b =>
    refine Eq.trans ?_ hnone
    exact regOperand_elim_keeps (f := State.out) fun _ _ => regOperand_elim_keeps (f := State.out) fun _ _ => rfl

/-- The advance past the instruction writes no output. -/
theorem completedState_out (i : Instr) (s : State) : (completedState i s).out = s.out ++ emitted i s := by
  rw [← handlerEffect_out]
  cases i <;> rfl

/-- From RUNNING, a completed instruction leaves the machine RUNNING or, for HALT, HALTED. -/
theorem completedState_status_ne_faulted {i : Instr} {s : State} (hrun : s.status = .running) :
    (completedState i s).status ≠ .faulted := by
  by_cases hi : i = .halt
  · simp [hi, completedState]
  · simp [completedState_status_of_ne_halt hi, hrun]

/-- Settles O31: an instruction ends in fault entry, which writes status and record, or completes, and then writes no
record, the status for HALT only, and the output for PRINT only. -/
theorem controlStateFrame : Obligations.ControlStateFrame := by
  intro i s t hrun hexec
  obtain rfl := eq_execResult hexec
  cases hf : execFault i s with
  | some k =>
    rw [execResult_of_fault hf]
    exact ⟨fun _ => rfl, fun hok => absurd rfl hok, fun _ => rfl⟩
  | none =>
    rw [execResult_of_no_fault hf]
    refine ⟨fun hne => ?_, fun _ => ⟨completedState_fault i s, fun hi => ?_⟩, fun hfaulted => ?_⟩
    · rw [completedState_out, emitted_of_ne_print hne, List.append_nil]
    · rw [completedState_status_of_ne_halt hi, hrun]
    · exact absurd hfaulted (completedState_status_ne_faulted hrun)

/-- The output after PRINT: as before where it faults, else with the value of its register appended. -/
theorem execResult_print_out (a : Byte) (s : State) :
    (execResult (.print a) s).out = s.out ∨
    ∃ h : a.toNat < 8, execResult (.print a) s = { s with out := s.out ++ [s.regs[a.toNat]], pc := s.pc + 2#9 } := by
  by_cases ha : a.toNat < 8
  · exact .inr ⟨ha, (eq_execResult (exec_print_of_lt ha)).symm⟩
  · have hfault : exec (.print a) s = .next (s.raise .registerFault (some 0x47#8)) := withReg_of_ge (Nat.le_of_not_lt ha)
    exact .inl (by rw [← eq_execResult hfault, State.raise_out])

/-- Settles O32: fault entry writes no output, and of the instructions that decode only PRINT does, whose operand is the
byte at `pc + 1`. -/
theorem outputGrowsOnlyByPrint : Obligations.OutputGrowsOnlyByPrint := by
  intro s t hstep
  obtain ⟨hrun, ⟨i, rest, hdec, hexec⟩ | ⟨e, -, hfault⟩⟩ := step_cases hstep
  · by_cases hprint : ∃ a, i = .print a
    · obtain ⟨a, rfl⟩ := hprint
      obtain rfl := eq_execResult hexec
      refine (execResult_print_out a s).imp_right fun ⟨ha, hres⟩ => ?_
      rw [hres]
      exact ⟨read?_of_decode_ok hdec (k := 0) rfl, hrun, a, ha, read?_of_decode_ok hdec (k := 1) rfl, rfl⟩
    · obtain ⟨hout, -, -⟩ := controlStateFrame i s t hrun hexec
      exact .inl (hout fun a e => hprint ⟨a, e⟩)
  · obtain ⟨k, op, hraise⟩ := decodeFault_next e s
    obtain rfl := Host.Outcome.next.inj (hraise.symm.trans hfault)
    exact .inl rfl

/-! ### What reads the control state -/

/-- The state with another status, record and output. -/
def State.withControl (s : State) (st : Status) (f : Option FaultRecord) (o : List Byte) : State :=
  { s with status := st, fault := f, out := o }

section
variable (i : Instr) (s : State) (st : Status) (f : Option FaultRecord) (o : List Byte)

theorem execFault_withControl : execFault i (s.withControl st f o) = execFault i s := by
  cases i <;> rfl

theorem emitted_withControl : emitted i (s.withControl st f o) = emitted i s := by
  cases i <;> rfl

theorem handlerEffect_withControl : (handlerEffect i (s.withControl st f o)).regs = (handlerEffect i s).regs ∧
    (handlerEffect i (s.withControl st f o)).mem = (handlerEffect i s).mem := by
  cases i with
  | halt => exact ⟨rfl, rfl⟩
  | ldi a b | print a | push a | pop a =>
    simp only [handlerEffect]
    cases regOperand a <;> exact ⟨rfl, rfl⟩
  | add a b | sub a b | mul a b | div a b =>
    simp only [handlerEffect]
    cases regOperand a <;> cases regOperand b <;> exact ⟨rfl, rfl⟩

theorem completedState_pc_withControl :
    (completedState i (s.withControl st f o)).pc = (completedState i s).pc := by
  by_cases hi : i = .halt
  · subst hi; rfl
  · rw [completedState_pc_of_ne_halt hi, completedState_pc_of_ne_halt hi]; rfl

end

/-- Settles O33: neither the fault an instruction takes nor its effect reads the control state, and what it appends to the
output is what it emits. -/
theorem controlStateCannotBeRead : Obligations.ControlStateCannotBeRead := by
  intro i s t u st f o ht hu
  obtain rfl := eq_execResult ht
  obtain rfl : u = execResult i (s.withControl st f o) := eq_execResult hu
  have hsame := execFault_withControl i s st f o
  cases hf : execFault i s with
  | some k =>
    rw [execResult_of_fault hf, execResult_of_fault (hsame.trans hf)]
    exact ⟨rfl, rfl, rfl, [], (List.append_nil s.out).symm, (List.append_nil o).symm⟩
  | none =>
    obtain ⟨hregs, hmem⟩ := handlerEffect_withControl i s st f o
    rw [execResult_of_no_fault hf, execResult_of_no_fault (hsame.trans hf)]
    refine ⟨?_, completedState_pc_withControl i s st f o, ?_, emitted i s, completedState_out i s, ?_⟩
    · rw [completedState_regs, completedState_regs, hregs]
    · rw [completedState_mem, completedState_mem, hmem]
    · rw [completedState_out, emitted_withControl]; rfl

end Sys2Proof.Machine

/-! SUPPORT. Proofs about the stack and code in memory (R88, R180): what a PUSH leaves for a POP and for the next fetch. -/

namespace Sys2Proof.Machine

open Sys2Proof

/-! ### Running several instructions -/

theorem execAll_cons {i : Instr} {s t : State} (h : exec i s = .next t) (is : List Instr) :
    execAll (i :: is) s = execAll is t := by
  simp only [execAll, h]

theorem execAll_append {is : List Instr} {s t : State} (h : execAll is s = .next t) (js : List Instr) :
    execAll (is ++ js) s = execAll js t := by
  induction is generalizing s with
  | nil => cases h; rfl
  | cons i is ih =>
    obtain ⟨u, hu⟩ := exec_next i s
    rw [execAll_cons hu] at h
    rw [List.cons_append, execAll_cons hu, ih h]

/-- Settles O36: LDI writes the register that PRINT then reads. -/
theorem ldiThenPrintEmitsTheValue : Obligations.LdiThenPrintEmitsTheValue := by
  intro a v s ha
  refine ⟨_, (execAll_cons (exec_ldi_of_lt ha) _).trans (execAll_cons (exec_print_of_lt ha) _), ?_, ?_, rfl, rfl⟩
  · simp only [Vector.getElem_set_self]
  · exact BitVec.add_assoc s.pc 3#9 2#9

/-! ### One PUSH and one POP of a register other than R7 -/

/-- What a PUSH of a register other than R7 leaves. -/
def pushedState (s : State) (v : Byte) : State :=
  { s with regs := s.regs.set 7 (s.regs[7] - 1), pc := s.pc + 2#9, mem := s.mem.write (s.regs[7] - 1) v }

/-- What a POP to a register other than R7 leaves. -/
def poppedState (s : State) (a : Byte) (ha : a.toNat < 7) : State :=
  { s with regs := (s.regs.set a.toNat (s.mem.read s.regs[7])).set 7 (s.regs[7] + 1), pc := s.pc + 2#9 }

theorem exec_push_of_lt_seven {a : Byte} {s : State} (ha : a.toNat < 7) (hsp : s.regs[7] ≠ 0x00#8) :
    exec (.push a) s = .next (pushedState s s.regs[a.toNat]) := by
  rw [exec_push_of_lt (Nat.lt_succ_of_lt ha) hsp, Vector.getElem_set_ne _ _ (Nat.ne_of_gt ha), pushedState]

theorem exec_pop_of_lt_seven {a : Byte} {s : State} (ha : a.toNat < 7) (hsp : s.regs[7] ≠ 0xFF#8) :
    exec (.pop a) s = .next (poppedState s a ha) := by
  rw [exec_pop_of_lt (Nat.lt_succ_of_lt ha) hsp rfl, Vector.getElem_set_ne _ _ (Nat.ne_of_lt ha), poppedState]

@[simp] theorem pushedState_sp (s : State) (v : Byte) : (pushedState s v).regs[7] = s.regs[7] - 1 :=
  Vector.getElem_set_self _

@[simp] theorem poppedState_sp (s : State) {a : Byte} (ha : a.toNat < 7) :
    (poppedState s a ha).regs[7] = s.regs[7] + 1 :=
  Vector.getElem_set_self _

/-- The pushed byte is at the new top, and every other cell is as before. -/
theorem pushedState_read? (s : State) (v : Byte) (c : Nat) :
    (pushedState s v).mem.read? c = if c = (s.regs[7] - 1).toNat then some v else s.mem.read? c :=
  Memory.read?_write _ _ _ c

/-- Above 0, a decrement does not wrap. -/
theorem toNat_sub_one {v : Byte} (h : v ≠ 0x00#8) : (v - 1).toNat + 1 = v.toNat := by
  bv_omega

/-- A POP of the byte that a PUSH of the same register left restores every register. -/
theorem regs_push_pop (regs : Vector Byte 8) (sp : Byte) {n : Nat} (hn : n < 8) :
    ((regs.set 7 sp).set n regs[n]).set 7 regs[7] = regs := by
  ext k hk
  by_cases hsp : 7 = k
  · subst hsp
    rw [Vector.getElem_set_self]
  · rw [Vector.getElem_set_ne _ _ hsp]
    by_cases hkn : n = k
    · subst hkn
      rw [Vector.getElem_set_self]
    · rw [Vector.getElem_set_ne _ _ hkn, Vector.getElem_set_ne _ _ hsp]

/-- Settles O34: the PUSH leaves SP below 0xFF and the register's value there, so the POP loads that value and SP comes back
to where it was. -/
theorem pushThenPopIsNetZero : Obligations.PushThenPopIsNetZero := by
  intro a s ha hsp
  have htop : (pushedState s s.regs[a.toNat]).mem.read (s.regs[7] - 1) = s.regs[a.toNat] := Memory.read_write_same _ _ _
  have hsp' : (pushedState s s.regs[a.toNat]).regs[7] ≠ 0xFF#8 := by
    rw [pushedState_sp]
    bv_omega
  refine ⟨_, (execAll_cons (exec_push_of_lt_seven ha hsp) _).trans (execAll_cons (exec_pop_of_lt_seven ha hsp') _),
    ?_, ?_, rfl, rfl, rfl, pushedState_read? s _⟩
  · simp only [poppedState, pushedState_sp, htop, BitVec.sub_add_cancel]
    exact regs_push_pop s.regs _ _
  · exact BitVec.add_assoc s.pc 2#9 2#9

/-! ### Any number of pushes and pops -/

/-- The bytes from SP up start with `vs`. -/
def StackHolds (s : State) (vs : List Byte) : Prop :=
  ∀ (k : Nat) (h : k < vs.length), s.mem.read? (s.regs[7].toNat + k) = some vs[k]

/-- A PUSH puts its byte on top of what the stack holds. -/
theorem StackHolds.push {s : State} {vs : List Byte} (h : StackHolds s vs) (v : Byte) (hsp : s.regs[7] ≠ 0x00#8) :
    StackHolds (pushedState s v) (v :: vs) := by
  have hdec := toNat_sub_one hsp
  intro k hk
  rw [pushedState_read?, pushedState_sp]
  cases k with
  | zero => exact if_pos rfl
  | succ k =>
    rw [if_neg (by omega), show (s.regs[7] - 1).toNat + (k + 1) = s.regs[7].toNat + k by omega]
    exact h k (Nat.lt_of_succ_lt_succ hk)

/-- Pushes from a stack with room for them: the values are on it, the last pushed on top, above what it held. -/
theorem execAll_pushes {pushed : List Byte} {s : State} {below : List Byte} (hregs : ∀ r ∈ pushed, r.toNat < 7)
    (hroom : pushed.length ≤ s.regs[7].toNat) (hstack : StackHolds s below) :
    ∃ t vs, execAll (pushed.map .push) s = .next t ∧ t.status = s.status ∧ t.fault = s.fault ∧ t.out = s.out ∧
      t.regs[7].toNat + pushed.length = s.regs[7].toNat ∧
      vs.map some = (pushed.reverse.map fun r => s.regs[r.toNat]?) ∧ StackHolds t (vs ++ below) := by
  induction pushed generalizing s below with
  | nil => exact ⟨s, [], rfl, rfl, rfl, rfl, rfl, rfl, hstack⟩
  | cons r rs ih =>
    obtain ⟨hr, hrs⟩ := List.forall_mem_cons.mp hregs
    rw [List.length_cons] at hroom
    have hsp : s.regs[7] ≠ 0x00#8 := fun e => by rw [e] at hroom; exact absurd hroom (by simp)
    have hdec := toNat_sub_one hsp
    obtain ⟨t, vs, hexec, hstatus, hfault, hout, hlen, hvals, hholds⟩ :=
      ih hrs (by rw [pushedState_sp]; omega) (hstack.push s.regs[r.toNat] hsp)
    rw [pushedState_sp] at hlen
    refine ⟨t, vs ++ [s.regs[r.toNat]], (execAll_cons (exec_push_of_lt_seven hr hsp) _).trans hexec, hstatus, hfault,
      hout, by rw [List.length_cons]; omega, ?_, by simpa using hholds⟩
    have hkept : ∀ q ∈ rs.reverse, (pushedState s s.regs[r.toNat]).regs[q.toNat]? = s.regs[q.toNat]? := fun q hq =>
      Vector.getElem?_set_ne (by decide) (Nat.ne_of_gt (hrs q (List.mem_reverse.mp hq)))
    rw [List.map_append, hvals, List.map_congr_left hkept, List.reverse_cons, List.map_append]
    simp [Vector.getElem?_eq_getElem (Nat.lt_succ_of_lt hr)]

/-- A POP followed by a PRINT of its register takes the top off the stack and appends it to the output. -/
theorem execAll_pop_print {r v : Byte} {s : State} {vs : List Byte} (hr : r.toNat < 7)
    (hroom : s.regs[7].toNat < 255) (hstack : StackHolds s (v :: vs)) :
    ∃ t, execAll [.pop r, .print r] s = .next t ∧ t.status = s.status ∧ t.fault = s.fault ∧ t.out = s.out ++ [v] ∧
      t.regs[7].toNat = s.regs[7].toNat + 1 ∧ StackHolds t vs := by
  have hsp : s.regs[7] ≠ 0xFF#8 := fun e => by rw [e] at hroom; exact absurd hroom (by decide)
  have hinc : (s.regs[7] + 1).toNat = s.regs[7].toNat + 1 := by bv_omega
  have htop : s.mem.read s.regs[7] = v := by simpa using hstack 0 (Nat.succ_pos _)
  have hval : (poppedState s r hr).regs[r.toNat] = v := by
    rw [← htop, poppedState, Vector.getElem_set_ne _ _ (Nat.ne_of_gt hr), Vector.getElem_set_self]
  refine ⟨_, (execAll_cons (exec_pop_of_lt_seven hr hsp) _).trans
    (execAll_cons (exec_print_of_lt (Nat.lt_succ_of_lt hr)) _), rfl, rfl, congrArg (s.out ++ [·]) hval, ?_, ?_⟩
  · exact (congrArg BitVec.toNat (poppedState_sp s hr)).trans hinc
  · intro k hk
    have hnext := hstack (k + 1) (Nat.succ_lt_succ hk)
    simp only [poppedState_sp, hinc]
    rw [Nat.add_right_comm]
    exact hnext

/-- As many pops, each printed, as the stack holds values print them from the top down. -/
theorem execAll_pops {popped vs : List Byte} {s : State} (hregs : ∀ r ∈ popped, r.toNat < 7)
    (hlen : popped.length = vs.length) (hroom : s.regs[7].toNat + vs.length ≤ 255) (hstack : StackHolds s vs) :
    ∃ t, execAll (popped.flatMap fun r => [.pop r, .print r]) s = .next t ∧ t.status = s.status ∧ t.fault = s.fault ∧
      t.out = s.out ++ vs ∧ t.regs[7].toNat = s.regs[7].toNat + vs.length := by
  induction popped generalizing s vs with
  | nil =>
    obtain rfl := List.eq_nil_of_length_eq_zero hlen.symm
    exact ⟨s, rfl, rfl, rfl, (List.append_nil _).symm, rfl⟩
  | cons r rs ih =>
    cases vs with
    | nil => cases hlen
    | cons v vs =>
      obtain ⟨hr, hrs⟩ := List.forall_mem_cons.mp hregs
      rw [List.length_cons] at hroom
      obtain ⟨u, hu, hstatus, hfault, hout, hsp, hholds⟩ := execAll_pop_print hr (by omega) hstack
      obtain ⟨t, ht, hstatus', hfault', hout', hsp'⟩ := ih hrs (Nat.succ.inj hlen) (by omega) hholds
      refine ⟨t, (execAll_append hu _).trans ht, hstatus'.trans hstatus, hfault'.trans hfault, ?_, ?_⟩
      · rw [hout', hout, List.append_assoc, List.singleton_append]
      · rw [hsp', hsp, List.length_cons]; omega

/-- Settles O35: the pushes leave their values on the stack, the last on top; the pops take and print them from the top
down. -/
theorem stackIsLastInFirstOut : Obligations.StackIsLastInFirstOut := by
  intro pushed popped s hpushed hpopped hlen hroom hrun
  have hempty : StackHolds s [] := fun k hk => absurd hk (Nat.not_lt_zero k)
  obtain ⟨u, vs, hu, hstatus, hfault, hout, hsp, hvals, hholds⟩ := execAll_pushes hpushed hroom hempty
  rw [List.append_nil] at hholds
  have hcount : vs.length = pushed.length := by simpa using congrArg List.length hvals
  have htop := s.regs[7].isLt
  obtain ⟨t, ht, hstatus', hfault', hout', hsp'⟩ := execAll_pops hpopped (hlen.trans hcount.symm) (by omega) hholds
  refine ⟨t, (execAll_append hu _).trans ht, by rw [hstatus', hstatus, hrun], hfault'.trans hfault, ?_, ?_⟩
  · exact BitVec.eq_of_toNat_eq (by omega)
  · rw [hout', hout, List.map_append, hvals]

/-! ### A pushed byte as the next opcode -/

/-- Settles O37: the pushed byte is the byte at the `pc` that the PUSH leaves; a HALT byte and an illegal byte there are the
cases of O18 and O10. -/
theorem pushedByteIsFetchedNext : Obligations.PushedByteIsFetchedNext := by
  intro a s ha hrun hop harg hsp haddr
  have hbytes : ∀ (k : Nat) (h : k < (encode (.push a)).length),
      s.mem.read? (s.pc.toNat + k) = some (encode (.push a))[k]
    | 0, _ => hop
    | 1, _ => harg
  have hstep := (instructionBytesLieAtAscendingAddresses s _ hrun hbytes).trans (exec_push_of_lt_seven ha hsp)
  have hpc : (pushedState s s.regs[a.toNat]).pc.toNat = (s.regs[7] - 1).toNat := by
    have hlt := (s.regs[7] - 1).isLt
    have hadd : (s.pc + 2#9).toNat = (s.pc.toNat + 2) % 512 := BitVec.toNat_add _ _
    exact hadd.trans (by omega)
  have hbyte : (pushedState s s.regs[a.toNat]).mem.read? (pushedState s s.regs[a.toNat]).pc.toNat =
      some s.regs[a.toNat] := by
    rw [pushedState_read?, hpc, if_pos rfl]
  obtain ⟨-, -, hhalt, -⟩ := haltStopsTheMachine
  exact ⟨_, hstep, hrun, fun hv => hhalt _ hrun (hv ▸ hbyte),
    fun hundef => illegalOpcodeFaultsBeforeOperandFetch _ _ hrun hbyte hundef⟩

end Sys2Proof.Machine

/-! SUPPORT. Proofs about runs (R62, R153, R277): `pc` grows with every cycle that leaves the machine RUNNING, so a run ends
before the model's bound. -/

namespace Sys2Proof.Machine

open Sys2Proof

/-! ### Progress -/

theorem one_le_operands_of_ne_halt {i : Instr} (h : i ≠ .halt) : 1 ≤ i.opcodeByte.toNat / 64 := by
  cases i with
  | halt => exact absurd rfl h
  | _ => simp

/-- A cycle that leaves the machine RUNNING has moved `pc` by two bytes at least: HALT alone is shorter. -/
theorem step_pc_grows {s t : State} (h : step s = .next t) (hrun : t.status = .running) :
    s.pc.toNat + 2 ≤ t.pc.toNat ∧ t.pc.toNat ≤ 0x100 := by
  obtain ⟨hmoves, -⟩ := pcOnlyAdvancesSequentially s t h
  obtain ⟨op, hread, hpc, hle⟩ := hmoves hrun
  rcases step_ends h with ⟨k, op', -, rfl⟩ | ⟨-, i, hread', rfl⟩
  · cases hrun
  · obtain rfl := Option.some.inj (hread.symm.trans hread')
    have hi : i ≠ .halt := by rintro rfl; cases hrun
    have hone := one_le_operands_of_ne_halt hi
    exact ⟨by omega, hle⟩

/-! ### Runs of a given number of cycles -/

theorem coreRun_succ {s t : State} (h : step s = .next t) (k : Nat) :
    Host.Core.run Sys2Proof.core (k + 1) s = Host.Core.run Sys2Proof.core k t := by
  have hcore : Sys2Proof.core.step s = .next t := h
  simp only [Host.Core.run, hcore]

/-- A run of at least one cycle starts with a step. -/
theorem coreRun_succ_inv {s t : State} {k : Nat} (h : Host.Core.run Sys2Proof.core (k + 1) s = .next t) :
    ∃ u, step s = .next u ∧ Host.Core.run Sys2Proof.core k u = .next t := by
  simp only [Host.Core.run] at h
  split at h
  · exact ⟨_, ‹_›, h⟩
  · cases h
  · cases h

theorem coreRun_pc_grows {k : Nat} {s t : State} (h : Host.Core.run Sys2Proof.core (k + 1) s = .next t)
    (hrun : t.status = .running) : s.pc.toNat + 2 * (k + 1) ≤ t.pc.toNat ∧ t.pc.toNat ≤ 0x100 := by
  induction k generalizing s with
  | zero =>
    obtain ⟨u, hu, hut⟩ := coreRun_succ_inv h
    obtain rfl := Host.Outcome.next.inj hut
    exact step_pc_grows hu hrun
  | succ k ih =>
    obtain ⟨u, hu, hut⟩ := coreRun_succ_inv h
    obtain ⟨v, hv, -⟩ := coreRun_succ_inv hut
    obtain ⟨hgrow, -⟩ := step_pc_grows hu (step_cases hv).1
    obtain ⟨hrest, hle⟩ := ih hut
    exact ⟨by omega, hle⟩

/-- After `n` cycles from RUNNING the machine has stopped on the way, or it is RUNNING still. -/
theorem coreRun_stops_or_runs (n : Nat) {s : State} (hrun : s.status = .running) :
    (∃ k t, 1 ≤ k ∧ k ≤ n ∧ Host.Core.run Sys2Proof.core k s = .next t ∧ t.status ≠ .running) ∨
    (∃ t : State, Host.Core.run Sys2Proof.core n s = .next t ∧ t.status = .running) := by
  induction n generalizing s with
  | zero => exact .inr ⟨s, rfl, hrun⟩
  | succ n ih =>
    obtain ⟨u, hu⟩ := step_next_of_running hrun
    by_cases hrun' : u.status = .running
    · rcases ih hrun' with ⟨k, t, hk, hkn, ht, hstop⟩ | ⟨t, ht, hrunning⟩
      · exact .inl ⟨k + 1, t, by omega, by omega, (coreRun_succ hu k).trans ht, hstop⟩
      · exact .inr ⟨t, (coreRun_succ hu n).trans ht, hrunning⟩
    · exact .inl ⟨1, u, Nat.le_refl 1, Nat.le_add_left 1 n, coreRun_succ hu 0, hrun'⟩

/-- Settles O43: 129 cycles that all leave the machine RUNNING would move `pc` past 0x100. -/
theorem everyRunEndsWithin129Cycles : Obligations.EveryRunEndsWithin129Cycles := by
  refine fun s hrun => ⟨(coreRun_stops_or_runs 129 hrun).resolve_right ?_, fun k t hk ht hrunning => ?_⟩
  · rintro ⟨t, ht, hrunning⟩
    obtain ⟨hgrow, hle⟩ := coreRun_pc_grows ht hrunning
    omega
  · obtain ⟨k, rfl⟩ := Nat.exists_eq_add_of_le' hk
    exact coreRun_pc_grows ht hrunning

/-! ### The model's bounded run -/

/-- A bounded run goes through the states that its first cycles reach. -/
theorem cycles_add_of_coreRun {k : Nat} {s t : State} (h : Host.Core.run Sys2Proof.core k s = .next t) (n : Nat) :
    cycles (k + n) s = cycles n t := by
  induction k generalizing s with
  | zero => obtain rfl := Host.Outcome.next.inj h; rw [Nat.zero_add]
  | succ k ih =>
    obtain ⟨u, hu, hut⟩ := coreRun_succ_inv h
    rw [Nat.add_right_comm, ← ih hut]
    simp only [cycles, hu]

/-- Every state ends in a terminal one, which a bounded run of 129 cycles or more returns. -/
theorem exists_terminal_eq_cycles (s : State) : ∃ t : State, t.status ≠ .running ∧ ∀ n, cycles (129 + n) s = t := by
  by_cases hrun : s.status = .running
  · obtain ⟨⟨k, t, -, hk, ht, hstop⟩, -⟩ := everyRunEndsWithin129Cycles s hrun
    refine ⟨t, hstop, fun n => ?_⟩
    rw [show 129 + n = k + (129 - k + n) by omega, cycles_add_of_coreRun ht, cycles_of_not_running hstop]
  · exact ⟨s, hrun, fun n => cycles_of_not_running hrun _⟩

/-- Settles O42: the state that O43 reaches within 129 cycles is terminal, so further cycles leave it as it is. -/
theorem runReturnsOnlyInTerminalStates : Obligations.RunReturnsOnlyInTerminalStates := by
  intro s
  obtain ⟨t, hstop, hcycles⟩ := exists_terminal_eq_cycles s
  have hrun : runCore s = t := hcycles 0
  exact ⟨by rwa [hrun], fun n => (hcycles n).trans hrun.symm, runCore_of_not_running⟩

end Sys2Proof.Machine

/-! SUPPORT. Proofs about reset, load and the exit status (R50, R66, R260 to R265). -/

namespace Sys2Proof.Machine

open Sys2Proof

/-- Settles O38: reset reads nothing of the session, and a cell of the empty memory is unlisted. -/
theorem resetGivesTheSpecsValues : Obligations.ResetGivesTheSpecsValues := by
  refine ⟨fun gpr m => ⟨fun k => ?_, rfl, rfl, fun c hc => Memory.read?_of_lt _ hc, rfl, rfl, rfl⟩, fun _ => rfl, rfl⟩
  fin_cases k <;> rfl

/-- Settles O40: reset leaves a fresh session and an empty memory; the load writes the image there and nowhere else. -/
theorem loadCopiesTheImage : Obligations.LoadCopiesTheImage := by
  intro gpr m img hfits
  refine ⟨_, Session.load_eq_next_iff.mpr ⟨rfl, hfits, rfl⟩, rfl, rfl, fun k hk => ?_, fun k hk hk256 => ?_⟩
  · rw [loadImage_read? hfits, if_pos hk, List.getElem?_eq_getElem hk]
  · rw [loadImage_read? hfits, if_neg (Nat.not_lt.mpr hk)]
    exact Memory.read?_of_lt _ hk256

theorem Session.load_of_loaded {m : Session} (h : m.phase = .loaded) (img : List Byte) :
    m.load img = .refused .loadTwice := by
  simp only [Session.load, h]

theorem Session.load_of_started {m : Session} (h : m.phase = .started) (img : List Byte) :
    m.load img = .refused .loadAfterFirstCycle := by
  simp only [Session.load, h]

theorem Session.load_of_too_long {m : Session} (h : m.phase = .fresh) {img : List Byte} (hlong : 256 < img.length) :
    m.load img = .refused .imageTooLong := by
  simp only [Session.load, h]
  exact if_pos hlong

/-- A run of a RUNNING machine performs its first cycle (R62, R265). -/
theorem Session.run_of_running {m : Session} (h : m.core.status = .running) : m.run = ⟨runCore m.core, .started⟩ :=
  if_pos h

/-- Settles O41: a load leaves the phase loaded, a run leaves it started, and reset makes it fresh again. -/
theorem otherLoadsAreRefused : Obligations.OtherLoadsAreRefused := by
  refine ⟨fun m img hlong hfresh => Session.load_of_too_long hfresh hlong, fun m m' img img' hload => ?_,
    fun m img hrun => ?_, fun m img hfits => ⟨_, Session.load_eq_next_iff.mpr ⟨rfl, hfits, rfl⟩⟩⟩
  · obtain ⟨-, -, rfl⟩ := Session.load_eq_next_iff.mp hload
    exact Session.load_of_loaded rfl img'
  · rw [Session.run_of_running hrun]
    exact Session.load_of_started rfl img

/-! ### The exit status -/

/-- A session's run returns in a terminal state (R62). -/
theorem Session.run_status_ne_running (m : Session) : m.run.core.status ≠ .running := by
  by_cases hrun : m.core.status = .running
  · rw [Session.run_of_running hrun]
    exact (runReturnsOnlyInTerminalStates m.core).1
  · rwa [Session.run_of_not_running hrun]

/-- The ways a boot ends: a run that has returned, or a host error. A load never ends in a fault of the core. -/
theorem launch_cases (lines : List (List Char)) :
    (∃ m, launch lines = .ran m ∧ m.core.status ≠ .running) ∨
    (∃ l, launch lines = .malformedProgram l) ∨ (∃ r, launch lines = .refusedLoad r) := by
  unfold launch
  split
  · exact .inr (.inl ⟨_, rfl⟩)
  · next img _ =>
    by_cases hfits : img.length ≤ 256
    · rw [Session.load_eq_next_iff.mpr ⟨rfl, hfits, rfl⟩]
      exact .inl ⟨_, rfl, Session.run_status_ne_running _⟩
    · rw [Session.load_of_too_long rfl (Nat.lt_of_not_le hfits)]
      exact .inr (.inr ⟨_, rfl⟩)

/-- A terminal state has an exit status, which is zero exactly on HALTED (R66). -/
theorem exitStatus_of_not_running {s : State} (h : s.status ≠ .running) :
    ∃ e, exitStatus s = some e ∧ (e = 0 ↔ s.status = .halted) := by
  unfold exitStatus
  cases hs : s.status with
  | running => exact absurd hs h
  | halted => exact ⟨0, rfl, by simp⟩
  | faulted => exact ⟨_, rfl, by simp⟩

/-- Settles O50: a run that has returned is in a terminal state; a host error is no run, and its status is a successor. -/
theorem exitStatusIsZeroExactlyOnHalt : Obligations.ExitStatusIsZeroExactlyOnHalt := by
  intro lines
  rcases launch_cases lines with ⟨m, hran, hstop⟩ | ⟨l, hmalformed⟩ | ⟨r, hrefused⟩
  · obtain ⟨e, he, hzero⟩ := exitStatus_of_not_running hstop
    exact ⟨e, by rw [hran]; exact he, by simp [hran, hzero]⟩
  · exact ⟨_, by rw [hmalformed]; rfl, by simp [hmalformed]⟩
  · exact ⟨_, by rw [hrefused]; rfl, by simp [hrefused]⟩

end Sys2Proof.Machine

/-! SUPPORT. Proofs about the texts the host reads and writes: cutting and trimming a text, the output text (R63), the image
text (R118, R227, R266) and the assembly text (R116). -/

namespace Sys2Proof.Machine

open Sys2Proof

/-! ### Cutting and trimming -/

theorem cutAt_append {sep : Char} {cs : List Char} (h : sep ∉ cs) (rest : List Char) :
    cutAt sep (cs ++ sep :: rest) = (cs, some rest) := by
  induction cs with
  | nil => simp [cutAt]
  | cons c cs ih =>
    obtain ⟨hc, hcs⟩ := not_or.mp (mt List.mem_cons.mpr h)
    simp [cutAt, Ne.symm hc, ih hcs]

/-- A text with no blank in it. -/
def Unblank (cs : List Char) : Prop := ∀ c ∈ cs, isBlankChar c = false

theorem dropBlanks_eq_self {cs : List Char} (h : ∀ c ∈ cs.head?, isBlankChar c = false) : dropBlanks cs = cs := by
  cases cs with
  | nil => rfl
  | cons c cs => simp [dropBlanks, h c rfl]

/-- Trimming keeps a text whose first and last characters are no blanks. -/
theorem trimText_eq_self {cs : List Char} (hfirst : ∀ c ∈ cs.head?, isBlankChar c = false)
    (hlast : ∀ c ∈ cs.getLast?, isBlankChar c = false) : trimText cs = cs := by
  rw [← List.head?_reverse] at hlast
  rw [trimText, dropBlanks_eq_self hfirst, dropBlanks_eq_self hlast, List.reverse_reverse]

theorem trimText_of_unblank {cs : List Char} (h : Unblank cs) : trimText cs = cs :=
  trimText_eq_self (fun c hc => h c (List.mem_of_mem_head? hc)) (fun c hc => h c (List.mem_of_mem_getLast? hc))

/-- Trimming keeps a text between two words. -/
theorem trimText_of_words {first last : List Char} (hfirst : Unblank first) (hne : first ≠ []) (hlast : Unblank last)
    (hne' : last ≠ []) (cs : List Char) : trimText (first ++ cs ++ last) = first ++ cs ++ last := by
  refine trimText_eq_self (fun c hc => hfirst c ?_) (fun c hc => hlast c ?_)
  · rw [List.append_assoc, List.head?_append_of_ne_nil _ hne] at hc
    exact List.mem_of_mem_head? hc
  · rw [List.getLast?_append_of_ne_nil _ hne'] at hc
    exact List.mem_of_mem_getLast? hc

/-! ### Decimal digits -/

theorem digitChar_toNat : ∀ d < 10, (digitChar d).toNat = 48 + d := by decide

/-- A byte's text is made of decimal digits. -/
theorem exists_digit_of_mem_decimalText {v : Byte} {c : Char} (h : c ∈ decimalText v) : ∃ d < 10, c = digitChar d := by
  have hv := v.isLt
  simp only [decimalText] at h
  split at h
  · exact ⟨_, ‹_›, List.mem_singleton.mp h⟩
  · split at h
    · simp only [List.mem_cons, List.not_mem_nil, or_false] at h
      rcases h with rfl | rfl
      exacts [⟨_, by omega, rfl⟩, ⟨_, by omega, rfl⟩]
    · simp only [List.mem_cons, List.not_mem_nil, or_false] at h
      rcases h with rfl | rfl | rfl
      exacts [⟨_, by omega, rfl⟩, ⟨_, by omega, rfl⟩, ⟨_, by omega, rfl⟩]

/-- A character outside the codes 48 to 57 is no decimal digit. -/
theorem ne_digitChar {c : Char} (hc : c.toNat < 48 ∨ 58 ≤ c.toNat) {d : Nat} (hd : d < 10) : c ≠ digitChar d := by
  rintro rfl
  rw [digitChar_toNat d hd] at hc
  omega

theorem not_mem_decimalText {c : Char} (hc : c.toNat < 48 ∨ 58 ≤ c.toNat) (v : Byte) : c ∉ decimalText v := by
  intro h
  obtain ⟨d, hd, hcd⟩ := exists_digit_of_mem_decimalText h
  exact ne_digitChar hc hd hcd

theorem digitValue_digitChar {base d : Nat} (hd : d < 10) (hbase : d < base) :
    digitValue base (digitChar d) = some d := by
  have hdigit : 48 ≤ 48 + d ∧ 48 + d < 58 := by omega
  simp only [digitValue, digitChar_toNat d hd, if_pos hdigit, Nat.add_sub_cancel_left, if_pos hbase]

theorem digitsValue_digitChar_cons {d : Nat} (hd : d < 10) (acc : Nat) (cs : List Char) :
    digitsValue 10 acc (digitChar d :: cs) = digitsValue 10 (10 * acc + d) cs := by
  rw [digitsValue, digitValue_digitChar hd hd]

/-- A byte's decimal text reads back as the byte's value. -/
theorem digitsValue_decimalText (v : Byte) : digitsValue 10 0 (decimalText v) = some v.toNat := by
  have hv := v.isLt
  simp only [decimalText]
  split
  · rw [digitsValue_digitChar_cons ‹_›, digitsValue]
    simp
  · split
    · rw [digitsValue_digitChar_cons (by omega), digitsValue_digitChar_cons (by omega), digitsValue, Option.some.injEq]
      omega
    · rw [digitsValue_digitChar_cons (by omega), digitsValue_digitChar_cons (by omega),
        digitsValue_digitChar_cons (by omega), digitsValue, Option.some.injEq]
      omega

theorem decimalText_injective {v w : Byte} (h : decimalText v = decimalText w) : v = w := by
  have hval := digitsValue_decimalText v
  rw [h, digitsValue_decimalText, Option.some.injEq] at hval
  exact BitVec.eq_of_toNat_eq hval.symm

/-! ### The output text -/

/-- The first line of the output text is the first byte's, and the rest is the text of the rest. -/
theorem cutAt_renderOut_cons (v : Byte) (vs : List Byte) :
    cutAt (Char.ofNat 10) (renderOut (v :: vs)) = (decimalText v, some (renderOut vs)) := by
  rw [renderOut, lineEnd, List.append_assoc, List.singleton_append, cutAt_append (not_mem_decimalText (.inl (by decide)) v)]

theorem renderOut_cons_ne_nil (v : Byte) (vs : List Byte) : renderOut (v :: vs) ≠ [] := by
  simp [renderOut, lineEnd]

/-- Settles O49: by induction on the bytes; the first line end closes the text of the first byte, which determines it. -/
theorem renderedOutputDeterminesTheBytes : Obligations.RenderedOutputDeterminesTheBytes := by
  intro o
  induction o with
  | nil =>
    intro o' h
    cases o' with
    | nil => rfl
    | cons w ws => exact absurd h.symm (renderOut_cons_ne_nil w ws)
  | cons v vs ih =>
    intro o' h
    cases o' with
    | nil => exact absurd h (renderOut_cons_ne_nil v vs)
    | cons w ws =>
      have hcut := congrArg (cutAt (Char.ofNat 10)) h
      rw [cutAt_renderOut_cons, cutAt_renderOut_cons, Prod.mk.injEq, Option.some.injEq] at hcut
      obtain ⟨hv, hvs⟩ := hcut
      rw [decimalText_injective hv, ih ws hvs]

/-! ### The image text -/

section
variable {line : List Char} (lines : List (List Char))

/-- A blank line is skipped (R118). -/
theorem parseImage_cons_of_blank (h : lineContent line = []) : parseImage (line :: lines) = parseImage lines := by
  rw [parseImage, if_pos h]

/-- A line that is no literal ends the parse (R227). -/
theorem parseImage_cons_of_no_literal (h : lineContent line ≠ []) (hnone : binaryLiteral (lineContent line) = none) :
    parseImage (line :: lines) = .malformedProgram line := by
  rw [parseImage, if_neg h, hnone]

variable {lines} {v : Byte} (h : lineContent line ≠ []) (hv : binaryLiteral (lineContent line) = some v)
include h hv

/-- A literal is the first byte of the image where the rest is an image. -/
theorem parseImage_cons_of_literal {vs : List Byte} (hvs : parseImage lines = .image vs) :
    parseImage (line :: lines) = .image (v :: vs) := by
  simp only [parseImage, if_neg h, hv, hvs]

/-- A literal does not mend a malformed rest. -/
theorem parseImage_cons_of_literal_of_malformed {l : List Char} (hl : parseImage lines = .malformedProgram l) :
    parseImage (line :: lines) = .malformedProgram l := by
  simp only [parseImage, if_neg h, hv, hl]

end

/-- One line that is no literal makes the whole text malformed, at it or at an earlier line. -/
theorem parseImage_malformed_of_mem {lines : List (List Char)} {line : List Char} (hmem : line ∈ lines)
    (hne : lineContent line ≠ []) (hnone : binaryLiteral (lineContent line) = none) :
    ∃ l ∈ lines, parseImage lines = .malformedProgram l := by
  induction lines with
  | nil => cases hmem
  | cons first rest ih =>
    by_cases hblank : lineContent first = []
    · have hrest : line ∈ rest := List.mem_of_ne_of_mem (by rintro rfl; exact hne hblank) hmem
      obtain ⟨l, hl, hparse⟩ := ih hrest
      exact ⟨l, List.mem_cons_of_mem _ hl, (parseImage_cons_of_blank rest hblank).trans hparse⟩
    · cases hlit : binaryLiteral (lineContent first) with
      | none => exact ⟨first, List.mem_cons_self, parseImage_cons_of_no_literal rest hblank hlit⟩
      | some v =>
        have hrest : line ∈ rest := List.mem_of_ne_of_mem (by rintro rfl; simp [hlit] at hnone) hmem
        obtain ⟨l, hl, hparse⟩ := ih hrest
        exact ⟨l, List.mem_cons_of_mem _ hl, parseImage_cons_of_literal_of_malformed hblank hlit hparse⟩

/-- Settles O47: the boot ends where the parser finds the text malformed. -/
theorem malformedTextNeverRuns : Obligations.MalformedTextNeverRuns := by
  intro lines line hmem hne hnone
  obtain ⟨l, hl, hparse⟩ := parseImage_malformed_of_mem hmem hne hnone
  exact ⟨l, hl, by simp only [launch, hparse]⟩

/-- The `n` low binary digits of a number, the most significant first. -/
def binaryDigits (n x : Nat) : List Char := (List.range n).map fun k => if x.testBit (n - 1 - k) then '1' else '0'

theorem binaryDigits_succ (n x : Nat) :
    binaryDigits (n + 1) x = (if x.testBit n then '1' else '0') :: binaryDigits n x := by
  have hshift : ∀ k, n + 1 - 1 - (k + 1) = n - 1 - k := by omega
  simp only [binaryDigits, List.range_succ_eq_map, List.map_cons, List.map_map, Function.comp_def, Nat.succ_eq_add_one,
    hshift]
  rfl

theorem mem_binaryDigits {n x : Nat} {c : Char} (h : c ∈ binaryDigits n x) : c = '1' ∨ c = '0' := by
  obtain ⟨k, -, rfl⟩ := List.mem_map.mp h
  exact ite_eq_or_eq _ _ _

theorem binaryValue_digit_cons (acc : Nat) (bit : Bool) (cs : List Char) :
    binaryValue acc ((if bit then '1' else '0') :: cs) = binaryValue (2 * acc + bit.toNat) cs := by
  cases bit <;> rfl

/-- The binary digits of a number read back, on top of what was read before. -/
theorem binaryValue_binaryDigits (n x acc : Nat) :
    binaryValue acc (binaryDigits n x) = some (acc * 2 ^ n + x % 2 ^ n) := by
  induction n generalizing acc with
  | zero => simp [binaryDigits, binaryValue, Nat.mod_one]
  | succ n ih =>
    have hlow : x % 2 ^ (n + 1) = x % 2 ^ n + 2 ^ n * (x / 2 ^ n % 2) := Nat.mod_pow_succ
    rw [binaryDigits_succ, binaryValue_digit_cons, ih, hlow, Nat.toNat_testBit]
    congr 1
    ring

theorem binaryLiteral_binaryDigits (v : Byte) : binaryLiteral (binaryDigits 8 v.toNat) = some v := by
  have hlen : (binaryDigits 8 v.toNat).length = 8 := by simp [binaryDigits]
  have hfits : v.toNat % 2 ^ 8 = v.toNat := Nat.mod_eq_of_lt v.isLt
  rw [binaryLiteral, if_pos hlen, binaryValue_binaryDigits, hfits]
  simp

theorem stripComment_append {cs : List Char} (h : '#' ∉ cs) (comment : List Char) :
    stripComment (cs ++ '#' :: comment) = cs := by
  induction cs with
  | nil => rfl
  | cons c cs ih =>
    obtain ⟨hc, hcs⟩ := not_or.mp (mt List.mem_cons.mpr h)
    simp [stripComment, Ne.symm hc, ih hcs]

/-- A line of binary digits and a comment holds the digits. -/
theorem lineContent_binaryDigits (n x : Nat) (comment : List Char) :
    lineContent (binaryDigits n x ++ '#' :: comment) = binaryDigits n x := by
  have hcomment : '#' ∉ binaryDigits n x := fun h => by simpa using mem_binaryDigits h
  have hunblank : Unblank (binaryDigits n x) := fun c hc => by
    rcases mem_binaryDigits hc with rfl | rfl <;> rfl
  calc lineContent (binaryDigits n x ++ '#' :: comment)
      = trimText (stripComment (binaryDigits n x ++ '#' :: comment)) := rfl
    _ = binaryDigits n x := by rw [stripComment_append hcomment, trimText_of_unblank hunblank]

/-- Settles O48: by induction on the bytes; the digits before the comment are a literal whose value is the byte. -/
theorem imageTextReadsBack : Obligations.ImageTextReadsBack := by
  intro vs comment
  induction vs with
  | nil => rfl
  | cons v vs ih =>
    have hcontent := lineContent_binaryDigits 8 v.toNat comment
    have hne : lineContent (binaryDigits 8 v.toNat ++ '#' :: comment) ≠ [] := by rw [hcontent, binaryDigits_succ]; simp
    have hlit : binaryLiteral (lineContent (binaryDigits 8 v.toNat ++ '#' :: comment)) = some v := by
      rw [hcontent, binaryLiteral_binaryDigits]
    exact parseImage_cons_of_literal hne hlit ih

/-! ### The assembly text -/

theorem registerOfText_registerText {a : Byte} (ha : a.toNat < 8) : registerOfText (registerText a) = some a := by
  simp [registerText, registerOfText, digitValue_digitChar (Nat.lt_trans ha (by decide)) ha]

theorem isBlankChar_digitChar {d : Nat} (hd : d < 10) : isBlankChar (digitChar d) = false := by
  simp only [isBlankChar, digitChar_toNat d hd, Bool.or_eq_false_iff, decide_eq_false_iff_not]
  omega

theorem registerText_unblank {a : Byte} (ha : a.toNat < 8) : Unblank (registerText a) := by
  intro c hc
  simp only [registerText, List.mem_cons, List.not_mem_nil, or_false] at hc
  rcases hc with rfl | rfl
  · rfl
  · exact isBlankChar_digitChar (by omega)

theorem comma_not_mem_registerText {a : Byte} (ha : a.toNat < 8) : ',' ∉ registerText a := by
  intro h
  simp only [registerText, List.mem_cons, List.not_mem_nil, or_false] at h
  rcases h with h | h
  · exact absurd h (by decide)
  · exact ne_digitChar (.inl (by decide)) (by omega) h

theorem decimalText_unblank (v : Byte) : Unblank (decimalText v) := by
  intro c hc
  obtain ⟨d, hd, rfl⟩ := exists_digit_of_mem_decimalText hc
  exact isBlankChar_digitChar hd

theorem decimalText_ne_nil (v : Byte) : decimalText v ≠ [] := by
  intro h
  simp only [decimalText] at h
  split at h
  · cases h
  · split at h <;> cases h

/-- A text without the `x` of `0x` is a decimal immediate. -/
theorem immediateOfText_of_x_not_mem {cs : List Char} (h : 'x' ∉ cs) : immediateOfText cs = byteOfDigits 10 cs := by
  unfold immediateOfText
  split
  · simp at h
  · rfl

theorem byteOfDigits_of_digitsValue {base n : Nat} {cs : List Char} (hne : cs ≠ [])
    (h : digitsValue base 0 cs = some n) (hn : n < 256) : byteOfDigits base cs = some (BitVec.ofNat 8 n) := by
  obtain ⟨c, cs, rfl⟩ := List.exists_cons_of_ne_nil hne
  simp [byteOfDigits, h, hn]

theorem immediateOfText_decimalText (v : Byte) : immediateOfText (decimalText v) = some v := by
  have hx : 'x' ∉ decimalText v := not_mem_decimalText (.inr (by decide)) v
  rw [immediateOfText_of_x_not_mem hx,
    byteOfDigits_of_digitsValue (decimalText_ne_nil v) (digitsValue_decimalText v) v.isLt]
  simp

/-- What the parser makes of the text after the mnemonic. -/
def parseOperands (m : Opcode) (operands : List Char) : Option Instr :=
  match m with
  | .halt => if trimText operands = [] then some .halt else none
  | .ldi => parseTwo .ldi immediateOfText operands
  | .print => parseOne .print operands
  | .push => parseOne .push operands
  | .pop => parseOne .pop operands
  | .add => parseTwo .add registerOfText operands
  | .sub => parseTwo .sub registerOfText operands
  | .mul => parseTwo .mul registerOfText operands
  | .div => parseTwo .div registerOfText operands

theorem opcodeOfText_mnemonicText (m : Opcode) : opcodeOfText (mnemonicText m) = some m := by
  cases m <;> rfl

theorem opcodeOfText_aliasText (m : Opcode) : opcodeOfText (aliasText m) = some m := by
  cases m <;> rfl

theorem mnemonicText_unblank (m : Opcode) : Unblank (mnemonicText m) := by
  cases m <;> simp [Unblank, mnemonicText, isBlankChar]

theorem mnemonicText_ne_nil (m : Opcode) : mnemonicText m ≠ [] := by
  cases m <;> decide

/-- A line that ends in a word is parsed by its mnemonic and the text after it. -/
theorem parseAssembly_line (m : Opcode) {operands word : List Char} (hword : Unblank word) (hne : word ≠ []) :
    parseAssembly (mnemonicText m ++ ' ' :: operands ++ word) = parseOperands m (operands ++ word) := by
  have hspace : ' ' ∉ mnemonicText m := fun h => Bool.noConfusion (mnemonicText_unblank m _ h)
  have hcut : cutAt ' ' (trimText (mnemonicText m ++ ' ' :: operands ++ word)) =
      (mnemonicText m, some (operands ++ word)) := by
    rw [trimText_of_words (mnemonicText_unblank m) (mnemonicText_ne_nil m) hword hne, List.append_assoc,
      List.cons_append, cutAt_append hspace]
  simp only [parseAssembly, hcut, opcodeOfText_mnemonicText, Option.getD_some]
  cases m <;> rfl

theorem parseOne_registerText (f : Byte → Instr) {a : Byte} (ha : a.toNat < 8) :
    parseOne f (registerText a) = some (f a) := by
  rw [parseOne, trimText_of_unblank (registerText_unblank ha), registerOfText_registerText ha, Option.map_some]

theorem parseTwo_text (f : Byte → Byte → Instr) {second : List Char → Option Byte} {a b : Byte} {word : List Char}
    (ha : a.toNat < 8) (hword : Unblank word) (hsecond : second word = some b) :
    parseTwo f second (registerText a ++ [',', ' '] ++ word) = some (f a b) := by
  have hblank : trimText (' ' :: word) = trimText word := rfl
  have hcut : cutAt ',' (registerText a ++ [',', ' '] ++ word) = (registerText a, some (' ' :: word)) := by
    rw [List.append_assoc]
    exact cutAt_append (comma_not_mem_registerText ha) _
  simp only [parseTwo, hcut, trimText_of_unblank (registerText_unblank ha), registerOfText_registerText ha, hblank,
    trimText_of_unblank hword, hsecond]

/-- A line with one register operand reads back. -/
theorem parseAssembly_one {m : Opcode} {f : Byte → Instr} (hm : parseOperands m = parseOne f) {a : Byte}
    (ha : a.toNat < 8) : parseAssembly (mnemonicText m ++ ' ' :: registerText a) = some (f a) := by
  have hline := parseAssembly_line m (operands := []) (registerText_unblank ha) (List.cons_ne_nil _ _)
  rw [List.append_assoc, List.cons_append, List.nil_append] at hline
  rw [hline, hm, parseOne_registerText f ha]

/-- A line with a register operand and a word that the second operand's parser reads back reads back. -/
theorem parseAssembly_two {m : Opcode} {f : Byte → Byte → Instr} {second : List Char → Option Byte}
    (hm : parseOperands m = parseTwo f second) {a b : Byte} {word : List Char} (ha : a.toNat < 8)
    (hword : Unblank word) (hne : word ≠ []) (hsecond : second word = some b) :
    parseAssembly (mnemonicText m ++ ' ' :: registerText a ++ [',', ' '] ++ word) = some (f a b) := by
  have hline := parseAssembly_line m (operands := registerText a ++ [',', ' ']) hword hne
  rw [← List.cons_append, ← List.append_assoc] at hline
  rw [hline, hm, parseTwo_text f ha hword hsecond]

/-- Settles O51: the line is cut at the space after the mnemonic and, for two operands, at the comma; registers and decimal
immediates read back. -/
theorem assemblyTextReadsBack : Obligations.AssemblyTextReadsBack := by
  refine ⟨fun i hw => ?_, fun m => ⟨opcodeOfText_mnemonicText m, opcodeOfText_aliasText m⟩⟩
  cases i with
  | halt => decide
  | ldi a b =>
    have ha : a.toNat < 8 := toNat_lt_of_wellFormed hw List.mem_cons_self
    exact parseAssembly_two rfl ha (decimalText_unblank b) (decimalText_ne_nil b) (immediateOfText_decimalText b)
  | print a | push a | pop a =>
    have ha : a.toNat < 8 := toNat_lt_of_wellFormed hw List.mem_cons_self
    exact parseAssembly_one rfl ha
  | add a b | sub a b | mul a b | div a b =>
    have ha : a.toNat < 8 := toNat_lt_of_wellFormed hw List.mem_cons_self
    have hb : b.toNat < 8 := toNat_lt_of_wellFormed hw (List.mem_cons_of_mem _ List.mem_cons_self)
    exact parseAssembly_two rfl ha (registerText_unblank hb) (List.cons_ne_nil _ _) (registerOfText_registerText hb)

end Sys2Proof.Machine
